-- ==== Sys2Proof/Word.lean ====
section
/-! DEFINITION. Word: the bit patterns of 00_scope.md R7 and R9, and the vectors of them. -/

namespace Sys2Proof

/-- A W = 32-bit pattern: a fixed-point component, a scalar, a data word of the host port or a command word
(00_scope.md R7, R9). `toNat` is the spec's `U(v)`, `toInt` its `S(v)` (two's complement). -/
abbrev Word := BitVec 32

/-- A WW = 64-bit pattern: a wide intermediate (00_scope.md R7, R14). Never state (10_state.md R32). -/
abbrev Wide := BitVec 64

/-- A FixedVector: three fixed-point components (10_state.md R21, 00_scope.md R14). -/
structure FixedVector where
  x : Word
  y : Word
  z : Word
  deriving DecidableEq, Repr

/-- Three wide intermediates: the cross product of 42_surface_normal.md R151 step 2. -/
structure WideVector where
  x : Wide
  y : Wide
  z : Wide
  deriving DecidableEq, Repr

end Sys2Proof
end

