-- ==== Sys2Proof/Syntax.lean ====
section
/-! DEFINITION. Syntax: the eight commands, one constructor per row of 30_encoding.md R83, and the fields of a command
word as 30_encoding.md R80 lays them out. -/

namespace Sys2Proof

/-- The number of a vector register, `V0` to `V15` (10_state.md R21). -/
abbrev VReg := Fin 16

/-- The number of a scalar register, `S0` to `S15` (10_state.md R22). -/
abbrev SReg := Fin 16

/-- A command with its register numbers, destination first, in the field order D, A, B, C (30_encoding.md R87).
Every register number of every field is legal (30_encoding.md R80), so every term is a command. -/
inductive Instr where
  /-- `VADD Vd, Va, Vb` (41_basic_vector_ops.md R131). -/
  | vadd (d a b : VReg)
  /-- `VSUB Vd, Va, Vb` (41_basic_vector_ops.md R132). -/
  | vsub (d a b : VReg)
  /-- `VSCL Vd, Va, Sb` (41_basic_vector_ops.md R133). -/
  | vscl (d a : VReg) (b : SReg)
  /-- `VDOT Sd, Va, Vb` (41_basic_vector_ops.md R134). -/
  | vdot (d : SReg) (a b : VReg)
  /-- `VMAG Sd, Va` (41_basic_vector_ops.md R135). -/
  | vmag (d : SReg) (a : VReg)
  /-- `VNRM Vd` (41_basic_vector_ops.md R136). -/
  | vnrm (d : VReg)
  /-- `NRMQ Vd, Va, Vb, Vc` (42_surface_normal.md R151). -/
  | nrmq (d a b c : VReg)
  /-- `NRML Vd, Va, Vb, Vc` (42_surface_normal.md R152). -/
  | nrml (d a b c : VReg)
  deriving DecidableEq, Repr

/-- The formats of 30_encoding.md R81: which register fields a command uses. -/
inductive Format where
  | vvv
  | vvs
  | svv
  | sv
  | v
  | vvvv
  deriving DecidableEq, Repr

/-- A command word cut into the six fields of 30_encoding.md R80, any values: the raw syntax that
`Fields.wellFormed` checks. -/
structure Fields where
  /-- `OP`, bits 31:24. -/
  op : BitVec 8
  /-- `D`, bits 23:20. -/
  d : BitVec 4
  /-- `A`, bits 19:16. -/
  a : BitVec 4
  /-- `B`, bits 15:12. -/
  b : BitVec 4
  /-- `C`, bits 11:8. -/
  c : BitVec 4
  /-- `Z`, bits 7:0. -/
  z : BitVec 8
  deriving DecidableEq, Repr

end Sys2Proof
end

