-- ==== Sys2Proof/WellFormed.lean ====
section
/-! DEFINITION. WellFormed: which field values make a command (30_encoding.md R81, R83, R84). A term of `Instr` is well
formed by its type; what can be ill formed is the raw `Fields`, and this check is written from the tables of R81 and
R83, apart from the decoder, which follows the pseudocode of R89. -/

namespace Sys2Proof

/-- The format of each assigned opcode (30_encoding.md R83); none for an unassigned one (R85). -/
def opcodeFormat (op : BitVec 8) : Option Format :=
  match op.toNat with
  | 0x01 => some .vvv
  | 0x02 => some .vvv
  | 0x03 => some .vvs
  | 0x04 => some .svv
  | 0x05 => some .sv
  | 0x06 => some .v
  | 0x07 => some .vvvv
  | 0x08 => some .vvvv
  | _ => none

/-- The register fields a format does not use are zero (30_encoding.md R81, R84). -/
def Format.unusedZero (fmt : Format) (f : Fields) : Bool :=
  match fmt with
  | .vvv => f.c == 0
  | .vvs => f.c == 0
  | .svv => f.c == 0
  | .sv => f.b == 0 && f.c == 0
  | .v => f.a == 0 && f.b == 0 && f.c == 0
  | .vvvv => true

/-- The fields of a command: an assigned opcode, `Z` zero, every unused field zero (30_encoding.md R84). -/
def Fields.wellFormed (f : Fields) : Bool :=
  f.z == 0 && (opcodeFormat f.op).any (fun fmt => fmt.unusedZero f)

end Sys2Proof
end

