-- ==== Sys2Proof/Decode.lean ====
section
/-! DEFINITION. Decode: the decoder of 30_encoding.md R89, total on all 2^32 words, and the encoder of R80, R83 and R87.
A command word is one 32-bit datum of the host port: it has no bytes and no byte order (20_memory.md R54). -/

namespace Sys2Proof

/-- Why a word is no command. All three are the one fault IllegalCommand (30_encoding.md R85); the names only say
which check of R89 refused the word. -/
inductive DecodeError where
  /-- `Z` is not zero (30_encoding.md R84). -/
  | mustBeZeroByte
  /-- `OP` is none of 0x01 to 0x08 (30_encoding.md R85). -/
  | unassignedOpcode
  /-- A register field that the format does not use is not zero (30_encoding.md R84). -/
  | unusedField
  deriving DecidableEq, Repr

/-- The fields of a word (30_encoding.md R80, R82). -/
def splitFields (w : Word) : Fields :=
  { op := w.extractLsb' 24 8
    d := w.extractLsb' 20 4
    a := w.extractLsb' 16 4
    b := w.extractLsb' 12 4
    c := w.extractLsb' 8 4
    z := w.extractLsb' 0 8 }

/-- A 4-bit register field as the unsigned register number (30_encoding.md R82). -/
def fieldReg (x : BitVec 4) : Fin 16 := x.toFin

/-- A register number as its 4-bit field (30_encoding.md R80). -/
def regField (r : Fin 16) : BitVec 4 := BitVec.ofNat 4 r.val

/-- The case analysis of 30_encoding.md R89 on fields already cut. -/
def decodeFields (f : Fields) : Except DecodeError Instr :=
  if f.z ≠ 0 then .error .mustBeZeroByte
  else
    match f.op.toNat with
    | 0x01 => if f.c ≠ 0 then .error .unusedField else .ok (.vadd (fieldReg f.d) (fieldReg f.a) (fieldReg f.b))
    | 0x02 => if f.c ≠ 0 then .error .unusedField else .ok (.vsub (fieldReg f.d) (fieldReg f.a) (fieldReg f.b))
    | 0x03 => if f.c ≠ 0 then .error .unusedField else .ok (.vscl (fieldReg f.d) (fieldReg f.a) (fieldReg f.b))
    | 0x04 => if f.c ≠ 0 then .error .unusedField else .ok (.vdot (fieldReg f.d) (fieldReg f.a) (fieldReg f.b))
    | 0x05 => if f.b ≠ 0 ∨ f.c ≠ 0 then .error .unusedField else .ok (.vmag (fieldReg f.d) (fieldReg f.a))
    | 0x06 => if f.a ≠ 0 ∨ f.b ≠ 0 ∨ f.c ≠ 0 then .error .unusedField else .ok (.vnrm (fieldReg f.d))
    | 0x07 => .ok (.nrmq (fieldReg f.d) (fieldReg f.a) (fieldReg f.b) (fieldReg f.c))
    | 0x08 => .ok (.nrml (fieldReg f.d) (fieldReg f.a) (fieldReg f.b) (fieldReg f.c))
    | _ => .error .unassignedOpcode

/-- `decode` of 30_encoding.md R89: a command with its register numbers, or illegal. It reads no state. -/
def decode (w : Word) : Except DecodeError Instr := decodeFields (splitFields w)

/-- The fields of a command (30_encoding.md R83, R87): its opcode and its register numbers, every other field zero. -/
def instrFields (i : Instr) : Fields :=
  match i with
  | .vadd d a b => ⟨0x01, regField d, regField a, regField b, 0, 0⟩
  | .vsub d a b => ⟨0x02, regField d, regField a, regField b, 0, 0⟩
  | .vscl d a b => ⟨0x03, regField d, regField a, regField b, 0, 0⟩
  | .vdot d a b => ⟨0x04, regField d, regField a, regField b, 0, 0⟩
  | .vmag d a => ⟨0x05, regField d, regField a, 0, 0, 0⟩
  | .vnrm d => ⟨0x06, regField d, 0, 0, 0, 0⟩
  | .nrmq d a b c => ⟨0x07, regField d, regField a, regField b, regField c, 0⟩
  | .nrml d a b c => ⟨0x08, regField d, regField a, regField b, regField c, 0⟩

/-- The word that holds given fields in the bit places of 30_encoding.md R80; the places do not overlap, so the sum
is the bitwise OR that R87 writes. -/
def joinFields (f : Fields) : Word :=
  BitVec.ofNat 32
    (f.op.toNat * 2 ^ 24 + f.d.toNat * 2 ^ 20 + f.a.toNat * 2 ^ 16 + f.b.toNat * 2 ^ 12 + f.c.toNat * 2 ^ 8 + f.z.toNat)

/-- The command word of a command: its one encoding (30_encoding.md R83, R87; 92_eei_decisions.md D9). -/
def encode (i : Instr) : Word := joinFields (instrFields i)

/-- The command the decoder reads from a table word of `nbits` bits, bit 0 the least significant bit of the command
word (00_scope.md R9); the bits above `nbits` are zero. -/
def decodeTableWord (nbits w : Nat) : Option Instr :=
  if w % 2 ^ nbits < 2 ^ 32 then (decode (BitVec.ofNat 32 (w % 2 ^ nbits))).toOption else none

end Sys2Proof
end

