-- ==== Sys2Proof/Config.lean ====
section
/-! DEFINITION. Config: what is fixed for the machine, and the values the spec leaves open.

The parameters of 00_scope.md R7 are fixed constants of the block (R16), so they stand as literals where they
enter: W = 32 and WW = 64 are the widths of `Word` and `Wide`; F = 16 is the start bit of `Machine.narrow` and the
scale of `Machine.fixDiv`; KINT = 32 is the start bit of `Machine.wideInt`; NV = NS = 16 are the lengths of the two
register files; TN = 256 and TB = 0x100 are the size of `Machine.shiftTable` and the bound of
`Machine.shiftSearch`; AW = 8, DW = 32 and CW = 32 are the widths of an index, of its data and of a command word. -/

/-- The content of a data word after a reset, which 10_state.md R36 leaves unspecified: "some 32-bit pattern that this
spec does not fix". `draw` counts the resets (the pattern "need not be the same from one reset to the next") and
`slot` is the word's index in the register map (20_memory.md R51). A free value: it has no body, so no proof can
know it. DESIGN CHOICE, unsafe; log entry 1. -/
opaque Sys2Proof.Config.resetWord (draw slot : Nat) : Sys2Proof.Word

/-- What `fix_div` would give for a zero divisor, a case 40_numeric_primitives.md R106 leaves undefined and no command
evaluates (93_implementation_defined.md U9). A free value: it has no body. DESIGN CHOICE, safe; log entry 7. -/
opaque Sys2Proof.Config.fixDivByZero (dividend : Sys2Proof.Word) : Sys2Proof.Word
end

