-- ==== Sys2Proof/Machine/Numeric.lean ====
section
/-! DEFINITION. Numeric: the pure functions of 40_numeric_primitives.md R101 to R113. Each converts its operands to
integers, computes exactly and reduces once, as the rule's formula does; `toInt` is the spec's `S`, `toNat` its `U`,
`BitVec.ofInt n` its `wrap_n`, and `/` on integers with a positive divisor is its `floor` of the quotient. -/

namespace Sys2Proof.Machine

/-- `fix_add` (R101): wraps silently. -/
def fixAdd (a b : Word) : Word := BitVec.ofInt 32 (a.toInt + b.toInt)

/-- `fix_sub` (R101): wraps silently. -/
def fixSub (a b : Word) : Word := BitVec.ofInt 32 (a.toInt - b.toInt)

/-- `wmul` (R102): the exact signed product. -/
def wmul (a b : Word) : Wide := BitVec.ofInt 64 (a.toInt * b.toInt)

/-- `wadd` (R103). -/
def wadd (p q : Wide) : Wide := BitVec.ofInt 64 (p.toInt + q.toInt)

/-- `wsub` (R103). -/
def wsub (p q : Wide) : Wide := BitVec.ofInt 64 (p.toInt - q.toInt)

/-- `narrow` (R104): bits 47:16. -/
def narrow (r : Wide) : Word := r.extractLsb' 16 32

/-- `fix_mul` (R105): wide multiply, then narrow. -/
def fixMul (a b : Word) : Word := narrow (wmul a b)

/-- `fix_div` (R106): the quotient of the scaled dividend, rounded toward zero, reduced by wrapping. A zero divisor
is not defined and no command evaluates it: a free value (93_implementation_defined.md U9, log entry 7). -/
def fixDiv (a b : Word) : Word :=
  if b = 0 then Config.fixDivByZero a else BitVec.ofInt 32 ((a.toInt * 2 ^ 16).tdiv b.toInt)

/-- `wabs2` (R107): twice the absolute value, an unsigned 64-bit pattern. -/
def wabs2 (r : Wide) : Wide := BitVec.ofNat 64 (2 * r.toInt.natAbs)

/-- `wide_int` (R108): bits 63:32. -/
def wideInt (u : Wide) : Word := u.extractLsb' 32 32

/-- `asr` (R109): the arithmetic right shift, rounding toward minus infinity. -/
def asr (r : Wide) (s : Nat) : Wide := BitVec.ofInt 64 (r.toInt / 2 ^ s)

/-- One digit of the square root: try bit `k - 1` of the root, then the bits below it (log entry 10). -/
def isqrtDigits (u : Nat) : Nat → Nat → Nat
  | 0, q => q
  | k + 1, q => if (q + 2 ^ k) * (q + 2 ^ k) ≤ u then isqrtDigits u k (q + 2 ^ k) else isqrtDigits u k q

/-- `isqrt` (R111): the floor of the square root of the pattern read as unsigned; below 2^32, so 32 digits. -/
def isqrt (u : Wide) : Nat := isqrtDigits u.toNat 32 0

/-- The ShiftTable `T` (R112; 10_state.md R31), its sixteen rows of sixteen entries in order. -/
def shiftTable : List (BitVec 3) :=
  [0, 0, 1, 1, 2, 2, 2, 2, 3, 3, 3, 3, 3, 3, 3, 3]
    ++ List.replicate 16 4
    ++ List.replicate 16 5 ++ List.replicate 16 5
    ++ List.replicate 16 6 ++ List.replicate 16 6 ++ List.replicate 16 6 ++ List.replicate 16 6
    ++ List.replicate 16 7 ++ List.replicate 16 7 ++ List.replicate 16 7 ++ List.replicate 16 7
    ++ List.replicate 16 7 ++ List.replicate 16 7 ++ List.replicate 16 7 ++ List.replicate 16 7

/-- `T[b]` (R112): the table is read with an 8-bit index, so every index is inside it. -/
def tableEntry (b : BitVec 8) : Nat := (shiftTable.getD b.toNat 0).toNat

/-- The shift search of R113 with the coarse count so far. The first argument bounds the coarse steps: three suffice
for a 32-bit pattern. The loop runs while the value is at least 0x100 (90_conflicts.md C1). -/
def shiftSearch : Nat → Nat → Word → Nat
  | 0, s, m => s + tableEntry (m.setWidth 8)
  | n + 1, s, m => if 0x100 ≤ m.toNat then shiftSearch n (s + 8) (m >>> 8) else s + tableEntry (m.setWidth 8)

/-- `shift_count` (R113). -/
def shiftCount (m : Word) : Nat := shiftSearch 3 0 m

/-- Component-wise `fix_add` (41_basic_vector_ops.md R131). -/
def vecAdd (a b : FixedVector) : FixedVector := ⟨fixAdd a.x b.x, fixAdd a.y b.y, fixAdd a.z b.z⟩

/-- Component-wise `fix_sub` (41_basic_vector_ops.md R132; 42_surface_normal.md R151 step 1). -/
def vecSub (a b : FixedVector) : FixedVector := ⟨fixSub a.x b.x, fixSub a.y b.y, fixSub a.z b.z⟩

/-- Component-wise `fix_mul` by a scalar (41_basic_vector_ops.md R133). -/
def vecScale (a : FixedVector) (k : Word) : FixedVector := ⟨fixMul a.x k, fixMul a.y k, fixMul a.z k⟩

/-- The 64-bit accumulator of a dot product (41_basic_vector_ops.md R134). -/
def dotAcc (a b : FixedVector) : Wide := wadd (wadd (wmul a.x b.x) (wmul a.y b.y)) (wmul a.z b.z)

/-- `magnitude(a)` (41_basic_vector_ops.md R135): the root of the sum of squares read as unsigned. -/
def magnitude (a : FixedVector) : Word := BitVec.ofNat 32 (isqrt (dotAcc a a))

/-- Each component divided by one divisor (41_basic_vector_ops.md R136). -/
def vecDiv (a : FixedVector) (temp : Word) : FixedVector := ⟨fixDiv a.x temp, fixDiv a.y temp, fixDiv a.z temp⟩

/-- The wide cross product of two edge vectors (42_surface_normal.md R151 step 2). -/
def cross (e0 e1 : FixedVector) : WideVector :=
  { x := wsub (wmul e1.z e0.y) (wmul e1.y e0.z)
    y := wsub (wmul e1.x e0.z) (wmul e1.z e0.x)
    z := wsub (wmul e1.y e0.x) (wmul e1.x e0.y) }

/-- The combined value `m` (42_surface_normal.md R151 step 4). -/
def combined (r : WideVector) : Word := wideInt (wabs2 r.x) ||| wideInt (wabs2 r.y) ||| wideInt (wabs2 r.z)

/-- Each wide component shifted right by `s` and narrowed (42_surface_normal.md R151 step 6). -/
def narrowShifted (r : WideVector) (s : Nat) : FixedVector :=
  ⟨narrow (asr r.x s), narrow (asr r.y s), narrow (asr r.z s)⟩

/-- `quick(v0, v1, v2)` (42_surface_normal.md R151 steps 1 to 6). -/
def quick (v0 v1 v2 : FixedVector) : FixedVector :=
  let r := cross (vecSub v1 v0) (vecSub v2 v1)
  let m := combined r
  if m = 0 then ⟨narrow r.x, narrow r.y, narrow r.z⟩ else narrowShifted r (shiftCount m)

end Sys2Proof.Machine
end

