-- ==== Sys2Proof/Machine/State.lean ====
section
/-! DEFINITION. State: everything 10_state.md R20 gives the block, the host events still to come, and the value after
reset. -/

namespace Sys2Proof.Machine

/-- An event the block takes: the two host transactions of 20_memory.md R50 and the reset of
70_reset_and_hazards.md R200. The size argument of a transaction is always 4 (00_scope.md R11). -/
inductive HostEvent where
  /-- `MemRead(idx, 4)`. -/
  | memRead (idx : BitVec 8)
  /-- `MemWrite(idx, 4, data)`. -/
  | memWrite (idx : BitVec 8) (data : Word)
  /-- The reset event. -/
  | reset
  deriving DecidableEq, Repr

/-- The state of the block (10_state.md R20) with its input and output (log entries 2, 3 and 4). -/
structure State where
  /-- `V[0]` to `V[15]` (10_state.md R21). -/
  vregs : Vector FixedVector 16
  /-- `S[0]` to `S[15]` (10_state.md R22). -/
  sregs : Vector Word 16
  /-- `STATUS.DZ` (10_state.md R25). -/
  dz : Bool
  /-- `STATUS.ILL` (10_state.md R25). -/
  ill : Bool
  /-- `CTRL.DZIE` (10_state.md R26). -/
  dzie : Bool
  /-- `CTRL.ILLIE` (10_state.md R26). -/
  illie : Bool
  /-- `FCMD` (10_state.md R27). -/
  fcmd : Word
  /-- The host events not yet taken, in port order, the next one first (20_memory.md R50, R58). The model's own
  field: DESIGN CHOICE, log entry 2. -/
  pending : List HostEvent
  /-- What the latest transaction returned: the word of a `MemRead` (20_memory.md R50), none for a `MemWrite` and for
  a reset. The model's own field: DESIGN CHOICE, log entry 3. -/
  reply : Option Word
  /-- How many reset events have drawn new free values for the data words (10_state.md R36). The model's own field:
  DESIGN CHOICE, log entry 4. -/
  resets : Nat
  deriving DecidableEq, Repr

/-- Reasons to stop with a fault: none. The two faults of 60_exceptions.md R170 do not stop the block, they end in a
next state (R175, R177), and no behaviour of the spec has the treatment `stuck` (93_implementation_defined.md
part 1). DEDUCED, safe; log entry 11. -/
inductive Fault
  deriving DecidableEq, Repr

/-- Reasons to refuse an instruction. -/
inductive Refusal where
  /-- Raised by an arm of `exec` whose instruction has no meaning yet; no arm is left that raises it. Safe: it stops
  where the hardware goes on. -/
  | notModelled (mnemonic : String)
  deriving DecidableEq, Repr

/-- What one event or one command ends in. -/
abbrev Result := Host.Outcome State Fault Refusal

/-- The state after a reset that takes the given draw of the unspecified data words (10_state.md R35, R36): flags,
enables and FCMD zero, nothing pending. -/
def State.ofReset (draw : Nat) : State :=
  { vregs := Vector.ofFn fun r : Fin 16 =>
      ⟨Config.resetWord draw (4 * r.val), Config.resetWord draw (4 * r.val + 1), Config.resetWord draw (4 * r.val + 2)⟩
    sregs := Vector.ofFn fun r : Fin 16 => Config.resetWord draw (0x40 + r.val)
    dz := false
    ill := false
    dzie := false
    illie := false
    fcmd := 0x00000000
    pending := []
    reply := none
    resets := draw }

/-- The block right after its first reset (10_state.md R35), with no host event yet. -/
def State.reset : State := State.ofReset 0

end Sys2Proof.Machine
end

