-- ==== Sys2Proof/Machine/Flags.lean ====
section
/-! DEFINITION. Flags: STATUS, CTRL and the interrupt output (10_state.md R25, R26, R30). No command computes a
condition code: the two fault flags are the only flags the block has (R25). -/

namespace Sys2Proof.Machine

/-- The two faults of 60_exceptions.md R170. -/
inductive FaultCause where
  /-- Code 0, flag `STATUS.DZ`: raised by VNRM and NRML. -/
  | divideByZero
  /-- Code 1, flag `STATUS.ILL`: raised by a word that decodes to no command. -/
  | illegalCommand
  deriving DecidableEq, Repr

/-- Sets the flag of a fault; a flag already set stays set (60_exceptions.md R175). -/
def setFlag (cause : FaultCause) (s : State) : State :=
  match cause with
  | .divideByZero => { s with dz := true }
  | .illegalCommand => { s with ill := true }

/-- A write to STATUS: a 1 clears the flag in its place, a 0 and every other bit do nothing (10_state.md R25). -/
def clearFlags (data : Word) (s : State) : State :=
  { s with dz := s.dz && !data.getLsbD 0, ill := s.ill && !data.getLsbD 1 }

/-- STATUS as it reads: ILL in bit 1, DZ in bit 0, the reserved bits hard-wired zero (20_memory.md R52). -/
def statusWord (s : State) : Word := (BitVec.ofBool s.ill ++ BitVec.ofBool s.dz).setWidth 32

/-- A write to CTRL: stores bits 1:0, discards the rest (10_state.md R26). -/
def writeCtrl (data : Word) (s : State) : State := { s with dzie := data.getLsbD 0, illie := data.getLsbD 1 }

/-- CTRL as it reads: ILLIE in bit 1, DZIE in bit 0, the reserved bits hard-wired zero (20_memory.md R52). -/
def ctrlWord (s : State) : Word := (BitVec.ofBool s.illie ++ BitVec.ofBool s.dzie).setWidth 32

/-- The interrupt output `irq` (10_state.md R30): a level, a pure function of the state. -/
def irq (s : State) : Bool := (s.dz && s.dzie) || (s.ill && s.illie)

end Sys2Proof.Machine
end

