-- ==== Sys2Proof/Machine/Operands.lean ====
section
/-! DEFINITION. Operands: the operand forms of 30_encoding.md R81, reads and writes of the two register files. No
register is hard-wired and none is read-only (10_state.md R21, R22). -/

namespace Sys2Proof.Machine

/-- The name of a vector component (00_scope.md R10). -/
inductive Component where
  | x
  | y
  | z
  deriving DecidableEq, Repr

/-- One component of a vector. -/
def component (v : FixedVector) (c : Component) : Word :=
  match c with
  | .x => v.x
  | .y => v.y
  | .z => v.z

/-- A vector with one component replaced; the other two stay (10_state.md R21). -/
def withComponent (v : FixedVector) (c : Component) (w : Word) : FixedVector :=
  match c with
  | .x => { v with x := w }
  | .y => { v with y := w }
  | .z => { v with z := w }

/-- `V[r]`, whole. -/
def readV (s : State) (r : VReg) : FixedVector := s.vregs[r]

/-- `V[r] <- v`, all components together (41_basic_vector_ops.md R130). -/
def writeV (s : State) (r : VReg) (v : FixedVector) : State := { s with vregs := s.vregs.set r v }

/-- `S[r]`. -/
def readS (s : State) (r : SReg) : Word := s.sregs[r]

/-- `S[r] <- w`. -/
def writeS (s : State) (r : SReg) (w : Word) : State := { s with sregs := s.sregs.set r w }

end Sys2Proof.Machine
end

