-- ==== Sys2Proof/Machine/Ops.lean ====
section
/-! DEFINITION. Ops: taking a fault, its return, the reset event, and the register map through which the host reads and
writes the block (20_memory.md R51 to R53). The block accesses no memory (R63), so the map is its only address space
that a transaction can reach. -/

namespace Sys2Proof.Machine

/-- Taking a fault, the fault entry of 60_exceptions.md R175: the flag is set and FCMD takes the 32-bit word that was
written to CMD. Register writes already made stay; nothing else is saved, no mode changes, control goes nowhere. -/
def raiseFault (cause : FaultCause) (word : Word) (s : State) : State := { setFlag cause s with fcmd := word }

/-- The return from a fault: the host acknowledges by writing ones to STATUS (60_exceptions.md R176). Nothing is
restored, because nothing was saved. -/
def acknowledge (data : Word) (s : State) : State := clearFlags data s

/-- The reset event (70_reset_and_hazards.md R200): the state of 10_state.md R35 with the next draw of the unspecified
data words; the host events after it stay to come (log entry 5). -/
def takeReset (s : State) : State := { State.ofReset (s.resets + 1) with pending := s.pending }

/-- What a word index of the map names (20_memory.md R51). -/
inductive MapEntry where
  | vector (r : VReg) (c : Component)
  | scalar (r : SReg)
  | cmd
  | status
  | ctrl
  | fcmd
  | id
  /-- A pad index `4*i + 3` below 0x40, or a reserved index from 0x55 up: reads as 0, writes ignored. -/
  | ignored
  deriving DecidableEq, Repr

/-- The register map (20_memory.md R51): the vector number is bits 5:2 of an index below 0x40, its component bits 1:0;
the scalar number is bits 3:0 of an index from 0x40 to 0x4F. -/
def mapEntry (idx : BitVec 8) : MapEntry :=
  if idx.toNat < 0x40 then
    match (idx.extractLsb' 0 2).toNat with
    | 0 => .vector (idx.extractLsb' 2 4).toFin .x
    | 1 => .vector (idx.extractLsb' 2 4).toFin .y
    | 2 => .vector (idx.extractLsb' 2 4).toFin .z
    | _ => .ignored
  else if idx.toNat < 0x50 then .scalar (idx.extractLsb' 0 4).toFin
  else
    match idx.toNat with
    | 0x50 => .cmd
    | 0x51 => .status
    | 0x52 => .ctrl
    | 0x53 => .fcmd
    | 0x54 => .id
    | _ => .ignored

/-- The identification word, "FVU" and version 1 (10_state.md R29, 00_scope.md R1). -/
def idWord : Word := 0x46565501

/-- The value of `MemRead(idx, 4)` (20_memory.md R52). -/
def mapRead (s : State) (idx : BitVec 8) : Word :=
  match mapEntry idx with
  | .vector r c => component (readV s r) c
  | .scalar r => readS s r
  | .cmd => 0
  | .status => statusWord s
  | .ctrl => ctrlWord s
  | .fcmd => s.fcmd
  | .id => idWord
  | .ignored => 0

/-- `MemWrite(idx, 4, data)` at every index but CMD's, which runs a command (20_memory.md R53): data registers take all
32 bits, STATUS is acknowledged, CTRL takes bits 1:0, and a write to any other index is ignored without a fault. -/
def mapWrite (s : State) (idx : BitVec 8) (data : Word) : State :=
  match mapEntry idx with
  | .vector r c => writeV s r (withComponent (readV s r) c data)
  | .scalar r => writeS s r data
  | .cmd => s
  | .status => acknowledge data s
  | .ctrl => writeCtrl data s
  | .fcmd => s
  | .id => s
  | .ignored => s

end Sys2Proof.Machine
end

