-- ==== Sys2Proof/Machine/BasicVector.lean ====
section
/-! DEFINITION. BasicVector: the meanings of VADD, VSUB, VSCL, VDOT, VMAG and VNRM (41_basic_vector_ops.md). Each reads
its sources whole, computes from them alone and writes its destination once (R130), so any registers may coincide. -/

namespace Sys2Proof.Machine

/-- `VADD Vd, Va, Vb` (R131). -/
def execVadd (d a b : VReg) (s : State) : Result := .next (writeV s d (vecAdd (readV s a) (readV s b)))

/-- `VSUB Vd, Va, Vb` (R132). -/
def execVsub (d a b : VReg) (s : State) : Result := .next (writeV s d (vecSub (readV s a) (readV s b)))

/-- `VSCL Vd, Va, Sb` (R133). That a magnitude scales with it is no rule beyond R133 and R135 (R138). -/
def execVscl (d a : VReg) (b : SReg) (s : State) : Result := .next (writeV s d (vecScale (readV s a) (readS s b)))

/-- `VDOT Sd, Va, Vb` (R134): one narrowing, of the whole sum. -/
def execVdot (d : SReg) (a b : VReg) (s : State) : Result :=
  .next (writeS s d (narrow (dotAcc (readV s a) (readV s b))))

/-- `VMAG Sd, Va` (R135), also of a vector that VSCL scaled (R138). -/
def execVmag (d : SReg) (a : VReg) (s : State) : Result := .next (writeS s d (magnitude (readV s a)))

/-- `normalize` of a register in place, for the command word `word` (R136): the divide by the magnitude of the original
vector, or DivideByZero with nothing written to `V[d]`. -/
def normalizeInPlace (word : Word) (d : VReg) (s : State) : State :=
  if magnitude (readV s d) = 0 then raiseFault .divideByZero word s
  else writeV s d (vecDiv (readV s d) (magnitude (readV s d)))

/-- `VNRM Vd` (R136). FCMD takes the command's own word, which is its one encoding (log entry 8). -/
def execVnrm (d : VReg) (s : State) : Result := .next (normalizeInPlace (encode (.vnrm d)) d s)

end Sys2Proof.Machine
end

