-- ==== Sys2Proof/Machine/SurfaceNormal.lean ====
section
/-! DEFINITION. SurfaceNormal: the meanings of NRMQ and NRML (42_surface_normal.md). -/

namespace Sys2Proof.Machine

/-- `NRMQ Vd, Va, Vb, Vc` (R151): `A` holds `v0`, `B` holds `v1`, `C` holds `v2` (R150). -/
def execNrmq (d a b c : VReg) (s : State) : Result :=
  .next (writeV s d (quick (readV s a) (readV s b) (readV s c)))

/-- `NRML Vd, Va, Vb, Vc` (R152): the quick result is stored first, then normalized in place; on DivideByZero `V[d]`
keeps the quick result. -/
def execNrml (d a b c : VReg) (s : State) : Result :=
  .next (normalizeInPlace (encode (.nrml d a b c)) d (writeV s d (quick (readV s a) (readV s b) (readV s c))))

end Sys2Proof.Machine
end

