-- ==== Sys2Proof/Machine/Dispatch.lean ====
section
/-! DEFINITION. Dispatch: one arm per constructor of Instr, one direct call of its meaning. -/

namespace Sys2Proof.Machine

def exec (i : Instr) (s : State) : Host.Outcome State Fault Refusal :=
  match i with
  | .vadd d a b => Sys2Proof.Machine.execVadd d a b s
  | .vsub d a b => Sys2Proof.Machine.execVsub d a b s
  | .vscl d a b => Sys2Proof.Machine.execVscl d a b s
  | .vdot d a b => Sys2Proof.Machine.execVdot d a b s
  | .vmag d a => Sys2Proof.Machine.execVmag d a s
  | .vnrm d => Sys2Proof.Machine.execVnrm d s
  | .nrmq d a b c => Sys2Proof.Machine.execNrmq d a b c s
  | .nrml d a b c => Sys2Proof.Machine.execNrml d a b c s

end Sys2Proof.Machine
end

