-- ==== Sys2Proof/Machine/Transact.lean ====
section
/-! DEFINITION. Transact: what each host event does (20_memory.md R50, R61; 70_reset_and_hazards.md R200). -/

namespace Sys2Proof.Machine

/-- A write to CMD (20_memory.md R61): decode, then execute the command on the current state, or raise
IllegalCommand with the word written (60_exceptions.md R171). -/
def writeCmd (word : Word) (s : State) : Result :=
  match decode word with
  | .ok i => exec i s
  | .error _ => .next (raiseFault .illegalCommand word s)

/-- `MemWrite(idx, 4, data)` (20_memory.md R53). -/
def memWrite (idx : BitVec 8) (data : Word) (s : State) : Result :=
  match mapEntry idx with
  | .cmd => writeCmd data s
  | _ => .next (mapWrite s idx data)

/-- One event, taken whole: a read returns its word and changes no state of the block (20_memory.md R52), a write
returns nothing, a reset gives the reset state. -/
def takeEvent (ev : HostEvent) (s : State) : Result :=
  match ev with
  | .memRead idx => .next { s with reply := some (mapRead s idx) }
  | .memWrite idx data => memWrite idx data { s with reply := none }
  | .reset => .next (takeReset s)

/-- The head of `pending` is taken off and served; with nothing pending nothing happens (00_scope.md R15,
60_exceptions.md R186; log entry 2). -/
def serveNext (s : State) : Result :=
  match s.pending with
  | [] => .next s
  | ev :: rest => takeEvent ev { s with pending := rest }

/-- A command word handed to the block: a write to CMD, with nothing returned yet, put before every other host event
(log entry 6). -/
def deliverCommand (word : Word) (s : State) : State := { s with pending := .memWrite 0x50 word :: s.pending }

end Sys2Proof.Machine
end

