-- ==== Sys2Proof/Machine/Step.lean ====
section
/-! DEFINITION. Step: one step of the machine is one host event (20_memory.md R50). The block has no program counter and
fetches nothing (10_state.md R24): a command arrives as the data of a write to CMD. -/

namespace Sys2Proof.Machine

/-- One step: the next host event, served whole. -/
def step (s : State) : Host.Outcome State Fault Refusal := serveNext s

/-- `s` with the command word `w` as the next host event (log entry 6). -/
def State.withFetchWord (s : State) (nbits w : Nat) : State := deliverCommand (BitVec.ofNat 32 (w % 2 ^ nbits)) s

end Sys2Proof.Machine
end

