-- ==== Sys2Proof/Safety.lean ====
section
/-! DEFINITION. Safety: the terms the claims use. First what a run must not do and what a command may change, then the
exact integers of the spec's rules, written apart from the machine's own functions. -/

namespace Sys2Proof.Safety

open Sys2Proof.Machine

/-- No division by zero and no illegal word since the last acknowledge (60_exceptions.md R177): what a safe run keeps. -/
def FaultFree (s : State) : Prop := s.dz = false ∧ s.ill = false

/-- FCMD holds a word that can have faulted (60_exceptions.md R170): one that decodes to no command, as the reset value
0 does, or one that decodes to VNRM or NRML. -/
def FcmdCanHaveFaulted (s : State) : Prop :=
  match decode s.fcmd with
  | .error _ => True
  | .ok (.vnrm _) => True
  | .ok (.nrml _ _ _ _) => True
  | .ok _ => False

/-- STATUS, CTRL and FCMD are the same. -/
def ControlSame (s t : State) : Prop :=
  t.dz = s.dz ∧ t.ill = s.ill ∧ t.dzie = s.dzie ∧ t.illie = s.illie ∧ t.fcmd = s.fcmd

/-- What has come in and gone out is the same. -/
def PortSame (s t : State) : Prop := t.pending = s.pending ∧ t.reply = s.reply ∧ t.resets = s.resets

/-- Every piece of state that 10_state.md R20 gives the block is the same. -/
def SameBlock (s t : State) : Prop := t.vregs = s.vregs ∧ t.sregs = s.sregs ∧ ControlSame s t

/-- The frame of a command that writes `V[d]`: every other register, STATUS, CTRL, FCMD and the port are unchanged, and
every word index but the three of `V[d]` reads as before. -/
def FrameVector (d : VReg) (s t : State) : Prop :=
  (∀ r, r ≠ d → readV t r = readV s r) ∧ (∀ r, readS t r = readS s r) ∧ ControlSame s t ∧ PortSame s t ∧
  ∀ idx : BitVec 8, ¬ (4 * d.val ≤ idx.toNat ∧ idx.toNat < 4 * d.val + 3) → mapRead t idx = mapRead s idx

/-- The frame of a command that writes `S[d]`: every other register, STATUS, CTRL, FCMD and the port are unchanged, and
every word index but the one of `S[d]` reads as before. -/
def FrameScalar (d : SReg) (s t : State) : Prop :=
  (∀ r, readV t r = readV s r) ∧ (∀ r, r ≠ d → readS t r = readS s r) ∧ ControlSame s t ∧ PortSame s t ∧
  ∀ idx : BitVec 8, idx.toNat ≠ 0x40 + d.val → mapRead t idx = mapRead s idx

/-- Three exact integers. -/
structure IntVector where
  x : Int
  y : Int
  z : Int
  deriving DecidableEq, Repr

/-- The signed reading of a vector's components (00_scope.md R9). -/
def ints (v : FixedVector) : IntVector := ⟨v.x.toInt, v.y.toInt, v.z.toInt⟩

/-- A word given by its wrapped integer (00_scope.md R9, `wrap_32`). -/
def word (n : Int) : Word := BitVec.ofInt 32 n

/-- The zero vector. -/
def zeroVector : FixedVector := ⟨0, 0, 0⟩

/-- The exact sum of the squares of three integers. -/
def sumSquares (v : IntVector) : Int := v.x * v.x + v.y * v.y + v.z * v.z

/-- `q` is the floor of the square root of the exact sum of squares (40_numeric_primitives.md R111). -/
def IsMagnitude (v : IntVector) (q : Nat) : Prop :=
  (q : Int) * q ≤ sumSquares v ∧ sumSquares v < ((q : Int) + 1) * (q + 1)

/-- The edge from `p` to `q`, each difference wrapped to a signed 32-bit value (42_surface_normal.md R151 step 1). -/
def edge (p q : FixedVector) : IntVector :=
  ⟨(q.x.toInt - p.x.toInt).bmod (2 ^ 32), (q.y.toInt - p.y.toInt).bmod (2 ^ 32), (q.z.toInt - p.z.toInt).bmod (2 ^ 32)⟩

/-- The exact cross product, in the form of 42_surface_normal.md R155. -/
def exactCross (e0 e1 : IntVector) : IntVector :=
  ⟨e0.y * e1.z - e0.z * e1.y, e0.z * e1.x - e0.x * e1.z, e0.x * e1.y - e0.y * e1.x⟩

/-- The exact cross product of the edges of three ordered points (42_surface_normal.md R153 (a)). -/
def normalOf (v0 v1 v2 : FixedVector) : IntVector := exactCross (edge v0 v1) (edge v1 v2)

/-- The combined value `m` of exact integers (42_surface_normal.md R151 step 4; 40_numeric_primitives.md R107, R108). -/
def combinedValue (r : IntVector) : Nat :=
  2 * r.x.natAbs / 2 ^ 32 ||| 2 * r.y.natAbs / 2 ^ 32 ||| 2 * r.z.natAbs / 2 ^ 32

/-- The largest magnitude of three integers. -/
def largest (r : IntVector) : Nat := max r.x.natAbs (max r.y.natAbs r.z.natAbs)

/-- The right shift of the quick normal in terms of the largest magnitude (42_surface_normal.md R153 (c), (d)): none when
it is below 2^31, else the least that brings it below 2^32. -/
def normalShift (r : IntVector) : Nat := if largest r < 2 ^ 31 then 0 else Nat.log2 (largest r) - 31

/-- The quick normal of exact integers (42_surface_normal.md R153 (f)): one rounding toward minus infinity. -/
def quickNormal (r : IntVector) : IntVector :=
  ⟨r.x / 2 ^ (normalShift r + 16), r.y / 2 ^ (normalShift r + 16), r.z / 2 ^ (normalShift r + 16)⟩

/-- Three points whose quick normal is the zero vector (42_surface_normal.md R153 (g)): every component of the cross
product lies in [0, 2^16). -/
def Degenerate (v0 v1 v2 : FixedVector) : Prop :=
  (0 ≤ (normalOf v0 v1 v2).x ∧ (normalOf v0 v1 v2).x < 2 ^ 16) ∧
  (0 ≤ (normalOf v0 v1 v2).y ∧ (normalOf v0 v1 v2).y < 2 ^ 16) ∧
  (0 ≤ (normalOf v0 v1 v2).z ∧ (normalOf v0 v1 v2).z < 2 ^ 16)

/-- No difference of two coordinates, `q` less `p`, leaves the signed 32-bit range. -/
def DifferenceFits (p q : FixedVector) : Prop :=
  (-(2 ^ 31) ≤ q.x.toInt - p.x.toInt ∧ q.x.toInt - p.x.toInt < 2 ^ 31) ∧
  (-(2 ^ 31) ≤ q.y.toInt - p.y.toInt ∧ q.y.toInt - p.y.toInt < 2 ^ 31) ∧
  (-(2 ^ 31) ≤ q.z.toInt - p.z.toInt ∧ q.z.toInt - p.z.toInt < 2 ^ 31)

/-- A word that decodes to no command, by the numbers of its fields (30_encoding.md R84, R85): an opcode outside 1 to
8, `Z` not zero, or a register field its format does not use not zero. -/
def IllegalWord (w : Word) : Prop :=
  w.toNat / 2 ^ 24 = 0 ∨ 9 ≤ w.toNat / 2 ^ 24 ∨ w.toNat % 2 ^ 8 ≠ 0 ∨
    ((w.toNat / 2 ^ 24 = 1 ∨ w.toNat / 2 ^ 24 = 2 ∨ w.toNat / 2 ^ 24 = 3 ∨ w.toNat / 2 ^ 24 = 4) ∧
      w.toNat / 2 ^ 8 % 16 ≠ 0) ∨
    (w.toNat / 2 ^ 24 = 5 ∧ (w.toNat / 2 ^ 12 % 16 ≠ 0 ∨ w.toNat / 2 ^ 8 % 16 ≠ 0)) ∨
    (w.toNat / 2 ^ 24 = 6 ∧
      (w.toNat / 2 ^ 16 % 16 ≠ 0 ∨ w.toNat / 2 ^ 12 % 16 ≠ 0 ∨ w.toNat / 2 ^ 8 % 16 ≠ 0))

/-- The register a command names as its destination (10_state.md R23): a vector register or a scalar register. -/
def destination (i : Instr) : VReg ⊕ SReg :=
  match i with
  | .vadd d _ _ => .inl d
  | .vsub d _ _ => .inl d
  | .vscl d _ _ => .inl d
  | .vdot d _ _ => .inr d
  | .vmag d _ => .inr d
  | .vnrm d => .inl d
  | .nrmq d _ _ _ => .inl d
  | .nrml d _ _ _ => .inl d

end Sys2Proof.Safety
end

