-- ==== Sys2Proof/Certificates/Slice0/Obligations.lean ====
section
/-! DEFINITION. Obligations: the statements for the provers, in the order of OBLIGATIONS.json. Integers, floors and
wraps are written out here (`/` on integers is the floor of the quotient), not taken from the machine's own
functions; the terms are those of Sys2Proof/Safety.lean. -/

open Sys2Proof Sys2Proof.Machine Sys2Proof.Safety

/-- Decoding the encoding of any command gives that command back, with every register number (30_encoding.md R80,
R83, R89). -/
def Obligations.DecodeOfEncodeIsTheCommand : Prop := ∀ i : Instr, decode (encode i) = .ok i

/-- A word that decodes to a command is that command's own encoding, so FCMD, which takes `encode i` on a fault, takes
the word written (log entry 8; 92_eei_decisions.md D9). -/
def Obligations.EncodeOfDecodedIsTheWord : Prop := ∀ (w : Word) (i : Instr), decode w = .ok i → encode i = w

/-- The eight rows of 30_encoding.md R83: a word is a command exactly when `w & mask = match`, with its register
numbers in the bits of R80. -/
def Obligations.CommandsMatchTheirMaskRows : Prop :=
  ∀ w : Word,
    let d := w.toNat / 2 ^ 20 % 16
    let a := w.toNat / 2 ^ 16 % 16
    let b := w.toNat / 2 ^ 12 % 16
    let c := w.toNat / 2 ^ 8 % 16
    (∀ rd ra rb : VReg, decode w = .ok (.vadd rd ra rb) ↔
      w &&& 0xFF000FFF#32 = 0x01000000#32 ∧ rd.val = d ∧ ra.val = a ∧ rb.val = b) ∧
    (∀ rd ra rb : VReg, decode w = .ok (.vsub rd ra rb) ↔
      w &&& 0xFF000FFF#32 = 0x02000000#32 ∧ rd.val = d ∧ ra.val = a ∧ rb.val = b) ∧
    (∀ (rd ra : VReg) (rb : SReg), decode w = .ok (.vscl rd ra rb) ↔
      w &&& 0xFF000FFF#32 = 0x03000000#32 ∧ rd.val = d ∧ ra.val = a ∧ rb.val = b) ∧
    (∀ (rd : SReg) (ra rb : VReg), decode w = .ok (.vdot rd ra rb) ↔
      w &&& 0xFF000FFF#32 = 0x04000000#32 ∧ rd.val = d ∧ ra.val = a ∧ rb.val = b) ∧
    (∀ (rd : SReg) (ra : VReg), decode w = .ok (.vmag rd ra) ↔
      w &&& 0xFF00FFFF#32 = 0x05000000#32 ∧ rd.val = d ∧ ra.val = a) ∧
    (∀ rd : VReg, decode w = .ok (.vnrm rd) ↔ w &&& 0xFF0FFFFF#32 = 0x06000000#32 ∧ rd.val = d) ∧
    (∀ rd ra rb rc : VReg, decode w = .ok (.nrmq rd ra rb rc) ↔
      w &&& 0xFF0000FF#32 = 0x07000000#32 ∧ rd.val = d ∧ ra.val = a ∧ rb.val = b ∧ rc.val = c) ∧
    (∀ rd ra rb rc : VReg, decode w = .ok (.nrml rd ra rb rc) ↔
      w &&& 0xFF0000FF#32 = 0x08000000#32 ∧ rd.val = d ∧ ra.val = a ∧ rb.val = b ∧ rc.val = c)

/-- The decoder refuses a word exactly when its opcode is unassigned or a must-be-zero bit is set (30_encoding.md
R84, R85), and exactly when the check of WellFormed refuses its fields. -/
def Obligations.RefusedWordsAreTheIllegalOnes : Prop :=
  ∀ w : Word, ((∃ e, decode w = .error e) ↔ IllegalWord w) ∧ (IllegalWord w ↔ (splitFields w).wellFormed = false)

/-- Words written out from 30_encoding.md R80 and R83 (95_test_vectors.md 2.2 rows E1 to E19) decode as the table
says. A sanity statement. -/
def Obligations.WrittenOutWordsDecode : Prop :=
  decode 0x01312000 = .ok (.vadd 3 1 2) ∧ decode 0x02FFF000 = .ok (.vsub 15 15 15) ∧
  decode 0x03000000 = .ok (.vscl 0 0 0) ∧ decode 0x04FFF000 = .ok (.vdot 15 15 15) ∧
  decode 0x05FA0000 = .ok (.vmag 15 10) ∧ decode 0x06F00000 = .ok (.vnrm 15) ∧
  decode 0x07012300 = .ok (.nrmq 0 1 2 3) ∧ decode 0x08000000 = .ok (.nrml 0 0 0 0) ∧
  decode 0x01312100 = .error .unusedField ∧ decode 0x01312001 = .error .mustBeZeroByte ∧
  decode 0x05FA1000 = .error .unusedField ∧ decode 0x06F10000 = .error .unusedField ∧
  decode 0x09000000 = .error .unassignedOpcode ∧ decode 0x00000000 = .error .unassignedOpcode

/-- A step whose event is a write to CMD of a word that decodes to a command runs exactly that command, on the state
with the event taken off (20_memory.md R61); and `withFetchWord` hands the block exactly the command of its word. -/
def Obligations.StepRunsTheDecodedCommand : Prop :=
  (∀ (s : State) (w : Word) (rest : List HostEvent) (i : Instr),
    s.pending = .memWrite 0x50 w :: rest → decode w = .ok i →
      step s = exec i { s with pending := rest, reply := none }) ∧
  (∀ (s : State) (i : Instr), step (s.withFetchWord 32 (encode i).toNat) = exec i { s with reply := none })

/-- A write to CMD of an illegal word, the next host event, sets STATUS.ILL, puts the word into FCMD and changes no
other state of the block, whatever the registers hold (60_exceptions.md R171; 30_encoding.md R85). -/
def Obligations.IllegalWordRaisesIllegalCommand : Prop :=
  ∀ (s : State) (w : Word) (rest : List HostEvent),
    s.pending = .memWrite 0x50 w :: rest → IllegalWord w →
      ∃ t, step s = .next t ∧ SameBlock { s with ill := true, fcmd := w } t

/-- The block never stops: every state, whatever its flags, has a next state (60_exceptions.md R177; no behaviour has
the treatment `stuck`, 93_implementation_defined.md part 1). -/
def Obligations.EveryStepAnswersNext : Prop := ∀ s : State, ∃ t, step s = .next t

/-- A step takes exactly one event, in order (20_memory.md R50, R58); with none pending nothing changes (log
entry 2). -/
def Obligations.StepTakesOneEventInOrder : Prop :=
  (∀ (s t : State) (ev : HostEvent) (rest : List HostEvent),
    s.pending = ev :: rest → step s = .next t → t.pending = rest) ∧
  (∀ s : State, s.pending = [] → step s = .next s)

/-- A `MemRead` returns the value 20_memory.md R52 gives for its index and changes no state of the block. What a read
returns is held in `reply`, the model's own field (log entry 3). -/
def Obligations.ReadReturnsTheMapValue : Prop :=
  ∀ (s : State) (idx : BitVec 8) (rest : List HostEvent), s.pending = .memRead idx :: rest →
    ∃ (v : Word) (t : State), step s = .next t ∧ t.reply = some v ∧ SameBlock s t ∧
      (∀ r : VReg, idx.toNat = 4 * r.val → v = (readV s r).x) ∧
      (∀ r : VReg, idx.toNat = 4 * r.val + 1 → v = (readV s r).y) ∧
      (∀ r : VReg, idx.toNat = 4 * r.val + 2 → v = (readV s r).z) ∧
      (∀ r : SReg, idx.toNat = 0x40 + r.val → v = readS s r) ∧
      (idx = 0x51 → v.toNat = 2 * s.ill.toNat + s.dz.toNat) ∧
      (idx = 0x52 → v.toNat = 2 * s.illie.toNat + s.dzie.toNat) ∧
      (idx = 0x53 → v = s.fcmd) ∧
      (idx = 0x54 → v = 0x46565501) ∧
      (idx = 0x50 ∨ 0x55 ≤ idx.toNat ∨ (idx.toNat < 0x40 ∧ idx.toNat % 4 = 3) → v = 0)

/-- A `MemWrite` does what 20_memory.md R53 says for its index, and changes no other state of the block: a data
register takes all 32 bits, CMD executes the command or raises IllegalCommand (R61), STATUS clears the flags selected
by ones, CTRL takes bits 1:0, and FCMD, ID, pad and reserved indices ignore it. -/
def Obligations.WriteUpdatesTheMap : Prop :=
  ∀ (s : State) (idx : BitVec 8) (data : Word) (rest : List HostEvent), s.pending = .memWrite idx data :: rest →
    ∃ t, step s = .next t ∧
      (∀ r : VReg, idx.toNat = 4 * r.val → SameBlock (writeV s r { readV s r with x := data }) t) ∧
      (∀ r : VReg, idx.toNat = 4 * r.val + 1 → SameBlock (writeV s r { readV s r with y := data }) t) ∧
      (∀ r : VReg, idx.toNat = 4 * r.val + 2 → SameBlock (writeV s r { readV s r with z := data }) t) ∧
      (∀ r : SReg, idx.toNat = 0x40 + r.val → SameBlock (writeS s r data) t) ∧
      (idx = 0x50 → ∀ i, decode data = .ok i → ∃ u, exec i s = .next u ∧ SameBlock u t) ∧
      (idx = 0x50 → ∀ e, decode data = .error e → SameBlock { s with ill := true, fcmd := data } t) ∧
      (idx = 0x51 → SameBlock { s with
        dz := if data.toNat % 2 = 1 then false else s.dz, ill := if data.toNat / 2 % 2 = 1 then false else s.ill } t) ∧
      (idx = 0x52 → SameBlock { s with
        dzie := decide (data.toNat % 2 = 1), illie := decide (data.toNat / 2 % 2 = 1) } t) ∧
      (idx = 0x53 ∨ idx = 0x54 ∨ 0x55 ≤ idx.toNat ∨ (idx.toNat < 0x40 ∧ idx.toNat % 4 = 3) → SameBlock s t)

/-- A data-register index reads, after a write to it, the word written; every other index but the written one reads as
before the write (20_memory.md R58; the data-register indices of R51). -/
def Obligations.DataWordReadsAsWritten : Prop :=
  ∀ (s t : State) (idx : BitVec 8) (data : Word) (rest : List HostEvent),
    s.pending = .memWrite idx data :: rest → step s = .next t →
    (idx.toNat < 0x40 ∧ idx.toNat % 4 ≠ 3) ∨ (0x40 ≤ idx.toNat ∧ idx.toNat < 0x50) →
      mapRead t idx = data ∧ ∀ other : BitVec 8, other ≠ idx → mapRead t other = mapRead s other

/-- The state after reset (10_state.md R35): flags, enables and FCMD zero, so irq is 0 and the control words read zero;
ID reads its constant and the ShiftTable holds its entries; nothing is said of the data words (R36). -/
def Obligations.ResetStateIsAsTabulated : Prop :=
  State.reset.dz = false ∧ State.reset.ill = false ∧ State.reset.dzie = false ∧ State.reset.illie = false ∧
  State.reset.fcmd = 0x00000000 ∧ irq State.reset = false ∧ mapRead State.reset 0x51 = 0 ∧
  mapRead State.reset 0x52 = 0 ∧ mapRead State.reset 0x53 = 0 ∧ mapRead State.reset 0x54 = 0x46565501 ∧
  ∀ b : BitVec 8, tableEntry b = if b = 0 then 0 else Nat.log2 b.toNat

/-- The reset event, from any state, leaves STATUS, CTRL and FCMD zero, irq 0 and ID its constant, and keeps only the
events still to come (70_reset_and_hazards.md R200; log entry 5). -/
def Obligations.ResetEventClearsTheBlock : Prop :=
  ∀ (s : State) (rest : List HostEvent), s.pending = .reset :: rest →
    ∃ t, step s = .next t ∧ mapRead t 0x51 = 0 ∧ mapRead t 0x52 = 0 ∧ mapRead t 0x53 = 0 ∧
      mapRead t 0x54 = 0x46565501 ∧ irq t = false ∧ t.pending = rest ∧ t.reply = none

/-- The fault flags are sticky (10_state.md R25): a set flag stays set through every step but a write to STATUS with a
one in its place and a reset. -/
def Obligations.FaultFlagsAreSticky : Prop :=
  ∀ s t : State, step s = .next t →
    (s.dz = true → t.dz = true ∨
      (∃ (data : Word) (rest : List HostEvent),
        s.pending = .memWrite 0x51 data :: rest ∧ data.toNat % 2 = 1) ∨
      ∃ rest : List HostEvent, s.pending = .reset :: rest) ∧
    (s.ill = true → t.ill = true ∨
      (∃ (data : Word) (rest : List HostEvent),
        s.pending = .memWrite 0x51 data :: rest ∧ data.toNat / 2 % 2 = 1) ∨
      ∃ rest : List HostEvent, s.pending = .reset :: rest)

/-- A state without a fault flag gets one only by a write to CMD of an illegal word, of VNRM on the zero vector, or of
NRML on degenerate points, and then FCMD holds that word (60_exceptions.md R170, R173; 10_state.md R25). -/
def Obligations.FaultFreeIsLostOnlyByAFault : Prop :=
  ∀ s t : State, FaultFree s → step s = .next t → ¬ FaultFree t →
    ∃ (w : Word) (rest : List HostEvent), s.pending = .memWrite 0x50 w :: rest ∧ t.fcmd = w ∧
      ((IllegalWord w ∧ t.ill = true ∧ t.dz = false) ∨
       (∃ d, w = encode (.vnrm d) ∧ readV s d = zeroVector ∧ t.dz = true ∧ t.ill = false) ∨
       (∃ d a b c, w = encode (.nrml d a b c) ∧ Degenerate (readV s a) (readV s b) (readV s c) ∧
          t.dz = true ∧ t.ill = false))

/-- Every step keeps: FCMD holds a word that can have faulted, one that decodes to no command or to VNRM or NRML
(10_state.md R27; 60_exceptions.md R170). Holds from every such state, reached or not. -/
def Obligations.FcmdKeepsAFaultingWord : Prop :=
  ∀ s t : State, FcmdCanHaveFaulted s → step s = .next t → FcmdCanHaveFaulted t

/-- The reset state meets the invariant of `FcmdKeepsAFaultingWord`. -/
def Obligations.ResetFcmdCanHaveFaulted : Prop := FcmdCanHaveFaulted State.reset

/-- irq is 1 exactly when a flag is set whose enable is set, read from the words of STATUS and CTRL (10_state.md R30;
60_exceptions.md R174). -/
def Obligations.IrqIsStatusAndControl : Prop :=
  ∀ s : State, irq s = true ↔ mapRead s 0x51 &&& mapRead s 0x52 ≠ 0

/-- irq changes only by a write to CMD, STATUS or CTRL or by reset (60_exceptions.md R174). -/
def Obligations.IrqChangesOnlyByControlWrites : Prop :=
  ∀ s t : State, step s = .next t → irq t ≠ irq s →
    (∃ (idx : BitVec 8) (data : Word) (rest : List HostEvent),
      s.pending = .memWrite idx data :: rest ∧ (idx = 0x50 ∨ idx = 0x51 ∨ idx = 0x52)) ∨
    ∃ rest : List HostEvent, s.pending = .reset :: rest

/-- No command's result depends on STATUS, CTRL or FCMD (60_exceptions.md R179): two states that differ only there give
the same vector and scalar registers, and a command raises a flag in both or in neither. -/
def Obligations.ResultsIgnoreStatusAndControl : Prop :=
  ∀ (i : Instr) (s : State) (dz ill dzie illie : Bool) (fcmd : Word),
    ∃ t u, exec i s = .next t ∧
      exec i { s with dz := dz, ill := ill, dzie := dzie, illie := illie, fcmd := fcmd } = .next u ∧
      u.vregs = t.vregs ∧ u.sregs = t.sregs ∧ u.dzie = dzie ∧ u.illie = illie ∧
      ((t.dz = s.dz ∧ t.ill = s.ill ∧ t.fcmd = s.fcmd ∧ u.dz = dz ∧ u.ill = ill ∧ u.fcmd = fcmd) ∨
       (t.dz = true ∧ t.ill = s.ill ∧ u.dz = true ∧ u.ill = ill ∧ u.fcmd = t.fcmd))

/-- Every command answers a next state, writes no register but its destination (41_basic_vector_ops.md R130) and never
CTRL; STATUS and FCMD change only by DivideByZero, of VNRM and NRML alone (60_exceptions.md R170). -/
def Obligations.CommandsWriteOnlyTheirDestination : Prop :=
  ∀ (i : Instr) (s : State), ∃ t, exec i s = .next t ∧
    (∀ r : VReg, destination i ≠ .inl r → readV t r = readV s r) ∧
    (∀ r : SReg, destination i ≠ .inr r → readS t r = readS s r) ∧
    t.dzie = s.dzie ∧ t.illie = s.illie ∧ t.ill = s.ill ∧ PortSame s t ∧
    ((t.dz = s.dz ∧ t.fcmd = s.fcmd) ∨
      (t.dz = true ∧ t.fcmd = encode i ∧
        ((∃ d, i = .vnrm d) ∨ ∃ d a b c, i = .nrml d a b c)))

/-- VADD (41_basic_vector_ops.md R131). -/
def Obligations.VaddAddsEachComponent : Prop :=
  ∀ (d a b : VReg) (s : State),
    (encode (.vadd d a b)).toNat = 0x01000000 + d.val * 2 ^ 20 + a.val * 2 ^ 16 + b.val * 2 ^ 12 ∧
    ∃ t, exec (.vadd d a b) s = .next t ∧
      readV t d = ⟨word ((readV s a).x.toInt + (readV s b).x.toInt), word ((readV s a).y.toInt + (readV s b).y.toInt),
        word ((readV s a).z.toInt + (readV s b).z.toInt)⟩ ∧
      FrameVector d s t

/-- VSUB (41_basic_vector_ops.md R132). -/
def Obligations.VsubSubtractsEachComponent : Prop :=
  ∀ (d a b : VReg) (s : State),
    (encode (.vsub d a b)).toNat = 0x02000000 + d.val * 2 ^ 20 + a.val * 2 ^ 16 + b.val * 2 ^ 12 ∧
    ∃ t, exec (.vsub d a b) s = .next t ∧
      readV t d = ⟨word ((readV s a).x.toInt - (readV s b).x.toInt), word ((readV s a).y.toInt - (readV s b).y.toInt),
        word ((readV s a).z.toInt - (readV s b).z.toInt)⟩ ∧
      FrameVector d s t

/-- VSCL (41_basic_vector_ops.md R133, with `fix_mul` of 40_numeric_primitives.md R105): the floor of each product over
2^16, wrapped. -/
def Obligations.VsclScalesEachComponent : Prop :=
  ∀ (d a : VReg) (b : SReg) (s : State),
    (encode (.vscl d a b)).toNat = 0x03000000 + d.val * 2 ^ 20 + a.val * 2 ^ 16 + b.val * 2 ^ 12 ∧
    ∃ t, exec (.vscl d a b) s = .next t ∧
      readV t d = ⟨word ((readV s a).x.toInt * (readS s b).toInt / 2 ^ 16),
        word ((readV s a).y.toInt * (readS s b).toInt / 2 ^ 16),
        word ((readV s a).z.toInt * (readS s b).toInt / 2 ^ 16)⟩ ∧
      FrameVector d s t

/-- VDOT (41_basic_vector_ops.md R134): one floor of the exact sum of the three products, wrapped, whether or not the
64-bit accumulator wrapped. -/
def Obligations.VdotNarrowsTheExactSum : Prop :=
  ∀ (d : SReg) (a b : VReg) (s : State),
    (encode (.vdot d a b)).toNat = 0x04000000 + d.val * 2 ^ 20 + a.val * 2 ^ 16 + b.val * 2 ^ 12 ∧
    ∃ t, exec (.vdot d a b) s = .next t ∧
      readS t d = word (((readV s a).x.toInt * (readV s b).x.toInt + (readV s a).y.toInt * (readV s b).y.toInt +
        (readV s a).z.toInt * (readV s b).z.toInt) / 2 ^ 16) ∧
      FrameScalar d s t

/-- VMAG (41_basic_vector_ops.md R135): the floor of the square root of the exact sum of squares, all 32 bits of it. -/
def Obligations.VmagIsTheFloorRoot : Prop :=
  ∀ (d : SReg) (a : VReg) (s : State),
    (encode (.vmag d a)).toNat = 0x05000000 + d.val * 2 ^ 20 + a.val * 2 ^ 16 ∧
    ∃ t, exec (.vmag d a) s = .next t ∧ IsMagnitude (ints (readV s a)) (readS t d).toNat ∧ FrameScalar d s t

/-- VNRM (41_basic_vector_ops.md R136): with `q` the magnitude of the register, DivideByZero when it is 0, else each
component times 2^16 over `q` read as a signed word, rounded toward zero and wrapped. -/
def Obligations.VnrmDividesByTheMagnitude : Prop :=
  ∀ (d : VReg) (s : State),
    (encode (.vnrm d)).toNat = 0x06000000 + d.val * 2 ^ 20 ∧
    ∃ q : Nat, q < 2 ^ 32 ∧ IsMagnitude (ints (readV s d)) q ∧
      (q = 0 → exec (.vnrm d) s = .next { s with dz := true, fcmd := encode (.vnrm d) }) ∧
      (q ≠ 0 → ∃ t, exec (.vnrm d) s = .next t ∧
        readV t d = ⟨word (((readV s d).x.toInt * 2 ^ 16).tdiv (BitVec.ofNat 32 q).toInt),
          word (((readV s d).y.toInt * 2 ^ 16).tdiv (BitVec.ofNat 32 q).toInt),
          word (((readV s d).z.toInt * 2 ^ 16).tdiv (BitVec.ofNat 32 q).toInt)⟩ ∧
        FrameVector d s t)

/-- VNRM of any vector but (0, 0, 0) completes without a fault, and no quotient wraps: each result is the exact
truncated quotient, below 2^18 in magnitude, and at most 2^16 when the magnitude is below 2^31 (the derived remarks of
41_basic_vector_ops.md R136). -/
def Obligations.VnrmCompletesOnNonzeroVectors : Prop :=
  ∀ (d : VReg) (s : State), readV s d ≠ zeroVector →
    ∃ (q : Nat) (t : State), 0 < q ∧ q < 2 ^ 32 ∧ IsMagnitude (ints (readV s d)) q ∧
      exec (.vnrm d) s = .next t ∧ FrameVector d s t ∧
      (let k := (BitVec.ofNat 32 q).toInt
       (readV t d).x.toInt = ((readV s d).x.toInt * 2 ^ 16).tdiv k ∧
       (readV t d).y.toInt = ((readV s d).y.toInt * 2 ^ 16).tdiv k ∧
       (readV t d).z.toInt = ((readV s d).z.toInt * 2 ^ 16).tdiv k) ∧
      largest (ints (readV t d)) < 2 ^ 18 ∧ (q < 2 ^ 31 → largest (ints (readV t d)) ≤ 2 ^ 16)

/-- NRMQ by the steps of 42_surface_normal.md R151, on exact integers: edges wrapped, cross product exact, `m` the OR of
the integer parts of the doubled magnitudes, the shift the position of its leading one (none when `m` is 0), and
two floors. -/
def Obligations.NrmqFollowsTheSteps : Prop :=
  ∀ (d a b c : VReg) (s : State),
    (encode (.nrmq d a b c)).toNat =
      0x07000000 + d.val * 2 ^ 20 + a.val * 2 ^ 16 + b.val * 2 ^ 12 + c.val * 2 ^ 8 ∧
    ∃ t, exec (.nrmq d a b c) s = .next t ∧ FrameVector d s t ∧
      (let r := normalOf (readV s a) (readV s b) (readV s c)
       let m := combinedValue r
       let k := if m = 0 then 0 else Nat.log2 m
       readV t d = ⟨word (r.x / 2 ^ k / 2 ^ 16), word (r.y / 2 ^ k / 2 ^ 16), word (r.z / 2 ^ k / 2 ^ 16)⟩)

/-- NRMQ's result without wrap (42_surface_normal.md R153 (a), (c), (d), (f)): each component is the exact integer floor
of the cross product over 2^(s+16), with the shift given by the largest magnitude, and lies in [-2^16, 2^16 - 1]. -/
def Obligations.NrmqComponentsAreExactAndFit : Prop :=
  ∀ (d a b c : VReg) (s : State), ∃ t, exec (.nrmq d a b c) s = .next t ∧ FrameVector d s t ∧
    ints (readV t d) = quickNormal (normalOf (readV s a) (readV s b) (readV s c)) ∧
    (∀ n ∈ [(readV t d).x.toInt, (readV t d).y.toInt, (readV t d).z.toInt], -(2 ^ 16) ≤ n ∧ n < 2 ^ 16) ∧
    (2 ^ 31 ≤ largest (normalOf (readV s a) (readV s b) (readV s c)) → 0x8000 ≤ largest (ints (readV t d)))

/-- NRMQ gives (0, 0, 0) exactly on degenerate points (42_surface_normal.md R153 (g)). -/
def Obligations.NrmqIsZeroExactlyWhenDegenerate : Prop :=
  ∀ (d a b c : VReg) (s : State), ∃ t, exec (.nrmq d a b c) s = .next t ∧
    (readV t d = zeroVector ↔ Degenerate (readV s a) (readV s b) (readV s c))

/-- Exchanging the last two points, where no edge difference wraps, negates the exact cross product under the same
shift: each component of the result becomes the exact negation when the discarded bits are zero, else the negation less
one ulp (42_surface_normal.md R155; 90_conflicts.md C9). -/
def Obligations.NrmqSwapNegatesWithinOneUlp : Prop :=
  ∀ (d a b c : VReg) (s : State),
    DifferenceFits (readV s a) (readV s b) → DifferenceFits (readV s b) (readV s c) →
    DifferenceFits (readV s a) (readV s c) → DifferenceFits (readV s c) (readV s b) →
    ∃ t u, exec (.nrmq d a b c) s = .next t ∧ exec (.nrmq d a c b) s = .next u ∧
      (let r := normalOf (readV s a) (readV s b) (readV s c)
       let n : Int := 2 ^ (normalShift r + 16)
       (readV u d).x.toInt = -(readV t d).x.toInt - (if n ∣ r.x then 0 else 1) ∧
       (readV u d).y.toInt = -(readV t d).y.toInt - (if n ∣ r.y then 0 else 1) ∧
       (readV u d).z.toInt = -(readV t d).z.toInt - (if n ∣ r.z then 0 else 1))

/-- NRML, by the pseudocode of 42_surface_normal.md R152: with `v` the quick result, which is what NRMQ leaves, and `q`
its magnitude, DivideByZero with `v` stored when `q` is 0, else each component of `v` times 2^16 over `q`, rounded toward
zero. -/
def Obligations.NrmlNormalizesTheQuickResult : Prop :=
  ∀ (d a b c : VReg) (s : State),
    (encode (.nrml d a b c)).toNat =
      0x08000000 + d.val * 2 ^ 20 + a.val * 2 ^ 16 + b.val * 2 ^ 12 + c.val * 2 ^ 8 ∧
    ∃ (u : State) (q : Nat), exec (.nrmq d a b c) s = .next u ∧ q < 2 ^ 32 ∧ IsMagnitude (ints (readV u d)) q ∧
      (q = 0 → exec (.nrml d a b c) s = .next { u with dz := true, fcmd := encode (.nrml d a b c) }) ∧
      (q ≠ 0 → ∃ t, exec (.nrml d a b c) s = .next t ∧
        readV t d = ⟨word (((readV u d).x.toInt * 2 ^ 16).tdiv (BitVec.ofNat 32 q).toInt),
          word (((readV u d).y.toInt * 2 ^ 16).tdiv (BitVec.ofNat 32 q).toInt),
          word (((readV u d).z.toInt * 2 ^ 16).tdiv (BitVec.ofNat 32 q).toInt)⟩ ∧
        FrameVector d s t)

/-- NRML of points that are not degenerate completes without a fault: each component is the exact truncated quotient of
the quick component by the quick magnitude, which is at most 0x0001BB67 and so never reads as negative, and is at most
2^16 in magnitude (the derived remarks of 42_surface_normal.md R152). -/
def Obligations.NrmlCompletesOnProperTriangles : Prop :=
  ∀ (d a b c : VReg) (s : State), ¬ Degenerate (readV s a) (readV s b) (readV s c) →
    ∃ (q : Nat) (t : State), 0 < q ∧ q ≤ 0x0001BB67 ∧
      IsMagnitude (quickNormal (normalOf (readV s a) (readV s b) (readV s c))) q ∧
      exec (.nrml d a b c) s = .next t ∧ FrameVector d s t ∧
      (let v := quickNormal (normalOf (readV s a) (readV s b) (readV s c))
       ints (readV t d) = ⟨(v.x * 2 ^ 16).tdiv q, (v.y * 2 ^ 16).tdiv q, (v.z * 2 ^ 16).tdiv q⟩) ∧
      largest (ints (readV t d)) ≤ 2 ^ 16

/-- NRML is NRMQ followed by VNRM of the same destination, in every register and flag; only the word that FCMD takes on
a fault differs, being NRML's own (42_surface_normal.md R152, derived there). -/
def Obligations.NrmlIsNrmqThenVnrm : Prop :=
  ∀ (d a b c : VReg) (s : State), ∃ u t, exec (.nrmq d a b c) s = .next u ∧ exec (.vnrm d) u = .next t ∧
    exec (.nrml d a b c) s =
      .next { t with fcmd := if readV u d = zeroVector then encode (.nrml d a b c) else s.fcmd }

/-- DivideByZero (60_exceptions.md R172): VNRM raises it exactly on (0, 0, 0) and NRML exactly when the quick result is
(0, 0, 0); STATUS.DZ is set, FCMD takes the command word, the destination is (0, 0, 0), and no other register
changes. On any other operand neither STATUS nor FCMD changes. -/
def Obligations.DivideByZeroIsRaisedExactlyOnZero : Prop :=
  (∀ (d : VReg) (s : State),
    (readV s d = zeroVector → exec (.vnrm d) s = .next { s with dz := true, fcmd := encode (.vnrm d) }) ∧
    (readV s d ≠ zeroVector → ∃ t, exec (.vnrm d) s = .next t ∧ ControlSame s t)) ∧
  (∀ (d a b c : VReg) (s u : State), exec (.nrmq d a b c) s = .next u →
    (readV u d = zeroVector → exec (.nrml d a b c) s =
      .next { writeV s d zeroVector with dz := true, fcmd := encode (.nrml d a b c) }) ∧
    (readV u d ≠ zeroVector → ∃ t, exec (.nrml d a b c) s = .next t ∧ ControlSame s t))

/-- VSUB then VADD restores the minuend exactly, also where the difference wraps (41_basic_vector_ops.md R132;
90_conflicts.md C5), for any registers with the difference not kept in the subtrahend's register. -/
def Obligations.VsubThenVaddRestores : Prop :=
  ∀ (d e a b : VReg) (s : State), e ≠ b →
    ∃ u t, exec (.vsub e a b) s = .next u ∧ exec (.vadd d e b) u = .next t ∧ readV t d = readV s a

/-- VDOT of two vectors in either order gives the same next state (41_basic_vector_ops.md R134). -/
def Obligations.VdotCommutes : Prop :=
  ∀ (d : SReg) (a b : VReg) (s : State), exec (.vdot d a b) s = exec (.vdot d b a) s

/-- VMAG gives 0 exactly for (0, 0, 0), and never less than the magnitude of a component (41_basic_vector_ops.md
R135). -/
def Obligations.VmagBoundsEachComponent : Prop :=
  ∀ (d : SReg) (a : VReg) (s : State), ∃ t, exec (.vmag d a) s = .next t ∧
    (readS t d = 0 ↔ readV s a = zeroVector) ∧ largest (ints (readV s a)) ≤ (readS t d).toNat ∧
    (readS t d).toNat ≤ 0xDDB3D742

/-- VSCL by 1.0 copies the vector, by 0 clears it, and by -1.0 negates it modulo 2^32 (41_basic_vector_ops.md R133). -/
def Obligations.VsclByOneZeroAndMinusOne : Prop :=
  ∀ (d a : VReg) (b : SReg) (s : State), ∃ t, exec (.vscl d a b) s = .next t ∧
    (readS s b = 0x00010000 → readV t d = readV s a) ∧
    (readS s b = 0x00000000 → readV t d = zeroVector) ∧
    (readS s b = 0xFFFF0000 → readV t d = ⟨-(readV s a).x, -(readV s a).y, -(readV s a).z⟩)

/-- `isqrt` is the floor of the square root of the unsigned pattern, below 2^32 (40_numeric_primitives.md R111). -/
def Obligations.IsqrtIsTheFloorRoot : Prop :=
  ∀ u : Wide, isqrt u * isqrt u ≤ u.toNat ∧ u.toNat < (isqrt u + 1) * (isqrt u + 1) ∧ isqrt u < 2 ^ 32

/-- The ShiftTable has 256 entries, `T[0] = 0` and `T[b] = floor(log2(b))` (40_numeric_primitives.md R112). -/
def Obligations.ShiftTableIsTheLeadingBit : Prop :=
  shiftTable.length = 256 ∧ tableEntry 0 = 0 ∧ ∀ b : BitVec 8, b ≠ 0 → tableEntry b = Nat.log2 b.toNat

/-- The two-stage search gives the position of the leading one, at most 31 (40_numeric_primitives.md R113, derived
there). -/
def Obligations.ShiftCountIsTheLeadingBit : Prop :=
  ∀ m : Word, m ≠ 0 → shiftCount m = Nat.log2 m.toNat ∧ shiftCount m ≤ 31

/-- `narrow` is bits 47:16, which is the floor over 2^16, wrapped; and wrap-around of the wide accumulator never changes
it, a fact that 40_numeric_primitives.md R104 marks as derived. -/
def Obligations.NarrowIsTheWrappedFloor : Prop :=
  (∀ r : Wide, narrow r = r.extractLsb' 16 32 ∧ narrow r = word (r.toInt / 2 ^ 16)) ∧
  ∀ z : Int, narrow (BitVec.ofInt 64 z) = word (z / 2 ^ 16)

/-- The overflow test is the 32-bit test: `wide_int(wabs2(r))` is the integer part of twice the magnitude, and is 0
exactly when the magnitude is below 2^31, for every `r` but -2^63, which no command reaches (40_numeric_primitives.md
R107, R108). -/
def Obligations.OverflowTestIsTheMagnitudeTest : Prop :=
  ∀ r : Wide, r ≠ 0x8000000000000000 →
    (wideInt (wabs2 r)).toNat = 2 * r.toInt.natAbs / 2 ^ 32 ∧ (wideInt (wabs2 r) = 0 ↔ r.toInt.natAbs < 2 ^ 31)

/-- The wide cross product is exact for every edge pair, and no component's magnitude exceeds 2^63 - 2^31
(40_numeric_primitives.md R114 (b); 42_surface_normal.md R153 (a)). -/
def Obligations.CrossProductIsExact : Prop :=
  ∀ e0 e1 : FixedVector,
    (⟨(cross e0 e1).x.toInt, (cross e0 e1).y.toInt, (cross e0 e1).z.toInt⟩ : IntVector) =
      exactCross (ints e0) (ints e1) ∧
    largest (exactCross (ints e0) (ints e1)) ≤ 2 ^ 63 - 2 ^ 31

/-- VSCL then VMAG of the scaled register, the exact form of the source's approximate scaling property
(41_basic_vector_ops.md R138, from R133 and R135): the magnitude is the floor of the root of the squares of the floored,
wrapped products, with no tolerance, and it need not be the scaled magnitude. -/
def Obligations.VsclThenVmagIsTheRootOfTheFloors : Prop :=
  ∀ (e a : VReg) (b d : SReg) (s : State), ∃ u t,
    exec (.vscl e a b) s = .next u ∧ exec (.vmag d e) u = .next t ∧
    (let scaled : FixedVector := ⟨word ((readV s a).x.toInt * (readS s b).toInt / 2 ^ 16),
       word ((readV s a).y.toInt * (readS s b).toInt / 2 ^ 16),
       word ((readV s a).z.toInt * (readS s b).toInt / 2 ^ 16)⟩
     readV t e = scaled ∧ IsMagnitude (ints scaled) (readS t d).toNat)
end

