-- ==== Sys2Proof/Laws/Decode.lean ====
section
/-! SUPPORT. The bit places of a command word: cutting a joined word gives its fields back, and joining a cut word gives
the word back. -/

namespace Sys2Proof

@[simp] theorem fieldReg_regField (r : Fin 16) : fieldReg (regField r) = r := by
  revert r; decide

@[simp] theorem regField_fieldReg (x : BitVec 4) : regField (fieldReg x) = x := by
  revert x; decide

@[simp] theorem toNat_regField (r : Fin 16) : (regField r).toNat = r.val := by
  revert r; decide

@[simp] theorem val_fieldReg (x : BitVec 4) : (fieldReg x).val = x.toNat := rfl

/-- The number a word of given fields is. -/
theorem toNat_joinFields (f : Fields) : (joinFields f).toNat =
    f.op.toNat * 16777216 + f.d.toNat * 1048576 + f.a.toNat * 65536 + f.b.toNat * 4096 + f.c.toNat * 256 + f.z.toNat := by
  have := f.op.isLt; have := f.d.isLt; have := f.a.isLt; have := f.b.isLt; have := f.c.isLt; have := f.z.isLt
  norm_num [joinFields, BitVec.toNat_ofNat] at *
  omega

/-- A field of a word, as a quotient and a remainder of its number. -/
theorem field_toNat (w : Word) (start len : Nat) :
    (w.extractLsb' start len).toNat = w.toNat / 2 ^ start % 2 ^ len := by
  rw [BitVec.extractLsb'_toNat, Nat.shiftRight_eq_div_pow]

/-- Six numbers in their places are read back by division and remainder. -/
theorem place_arith (op d a b c z n : Nat) (h1 : op < 256) (h2 : d < 16) (h3 : a < 16) (h4 : b < 16) (h5 : c < 16)
    (h6 : z < 256) (hn : n = op * 16777216 + d * 1048576 + a * 65536 + b * 4096 + c * 256 + z) :
    n / 16777216 % 256 = op ∧ n / 1048576 % 16 = d ∧ n / 65536 % 16 = a ∧ n / 4096 % 16 = b ∧ n / 256 % 16 = c ∧
      n % 256 = z := by
  refine ⟨?_, ?_, ?_, ?_, ?_, ?_⟩ <;> omega

/-- No bit of a field is dropped or moved into another field (30_encoding.md R80). -/
@[simp] theorem splitFields_joinFields (f : Fields) : splitFields (joinFields f) = f := by
  obtain ⟨h1, h2, h3, h4, h5, h6⟩ := place_arith _ _ _ _ _ _ _ f.op.isLt f.d.isLt f.a.isLt f.b.isLt f.c.isLt f.z.isLt
    (toNat_joinFields f)
  have e (start len k : Nat) (x : BitVec len) (hk : 2 ^ start = k) (h : (joinFields f).toNat / k % 2 ^ len = x.toNat) :
      (joinFields f).extractLsb' start len = x := by
    apply BitVec.eq_of_toNat_eq; rw [field_toNat, hk, h]
  obtain ⟨op, d, a, b, c, z⟩ := f
  simp only [splitFields, Fields.mk.injEq]
  exact ⟨e 24 8 _ _ (by norm_num) h1, e 20 4 _ _ (by norm_num) h2, e 16 4 _ _ (by norm_num) h3,
    e 12 4 _ _ (by norm_num) h4, e 8 4 _ _ (by norm_num) h5, e 0 8 1 _ (by norm_num) (by rw [Nat.div_one]; exact h6)⟩

/-- The six fields are the whole word (30_encoding.md R80). -/
@[simp] theorem joinFields_splitFields (w : Word) : joinFields (splitFields w) = w := by
  have := w.isLt
  apply BitVec.eq_of_toNat_eq
  rw [toNat_joinFields]
  norm_num [splitFields, field_toNat] at *
  omega
end Sys2Proof
end

