-- ==== Sys2Proof/Laws/Numeric.lean ====
section
/-! SUPPORT. The numeric primitives: their equivalents modulo 2^n, and when a wide value is exact
(40_numeric_primitives.md R101 to R109, R114). -/

namespace Sys2Proof.Machine

/-- Addition modulo 2^32 (R101). -/
theorem fixAdd_eq (a b : Word) : fixAdd a b = a + b := by
  simp [fixAdd, BitVec.ofInt_add]

/-- Subtraction modulo 2^32 (R101). -/
theorem fixSub_eq (a b : Word) : fixSub a b = a - b := by
  apply BitVec.eq_of_toInt_eq
  simp [fixSub, BitVec.toInt_ofInt, BitVec.toInt_sub]

/-- Addition modulo 2^64 (R103). -/
theorem wadd_eq (p q : Wide) : wadd p q = p + q := by
  simp [wadd, BitVec.ofInt_add]

/-- Subtraction modulo 2^64 (R103). -/
theorem wsub_eq (p q : Wide) : wsub p q = p - q := by
  apply BitVec.eq_of_toInt_eq
  simp [wsub, BitVec.toInt_ofInt, BitVec.toInt_sub]

/-- The signed reading of a 32-bit pattern. -/
theorem toInt_word_bounds (a : Word) : -(2 ^ 31) ≤ a.toInt ∧ a.toInt < 2 ^ 31 := by
  have h1 := BitVec.le_toInt a; have h2 := BitVec.toInt_lt (x := a)
  norm_num at *; exact ⟨h1, h2⟩

/-- An integer in the signed 64-bit range is its own wrap. -/
theorem toInt_ofInt_wide {z : Int} (h1 : -(2 ^ 63) ≤ z) (h2 : z < 2 ^ 63) : (BitVec.ofInt 64 z).toInt = z := by
  rw [BitVec.toInt_ofInt, Int.bmod_def]
  norm_num at *; split <;> omega

/-- An integer in the signed 32-bit range is its own wrap. -/
theorem toInt_ofInt_word {z : Int} (h1 : -(2 ^ 31) ≤ z) (h2 : z < 2 ^ 31) : (BitVec.ofInt 32 z).toInt = z := by
  rw [BitVec.toInt_ofInt, Int.bmod_def]
  norm_num at *; split <;> omega

/-- The bounds of a product of two words (R114 (a)). -/
theorem mul_bounds (a b : Word) : -(2 ^ 62 - 2 ^ 31) ≤ a.toInt * b.toInt ∧ a.toInt * b.toInt ≤ 2 ^ 62 := by
  obtain ⟨a1, a2⟩ := toInt_word_bounds a
  obtain ⟨b1, b2⟩ := toInt_word_bounds b
  norm_num at *
  constructor <;> nlinarith

/-- The wide product is exact (R102). -/
@[simp] theorem toInt_wmul (a b : Word) : (wmul a b).toInt = a.toInt * b.toInt := by
  obtain ⟨h1, h2⟩ := mul_bounds a b
  exact toInt_ofInt_wide (by norm_num at *; omega) (by norm_num at *; omega)

/-- The difference of two products is exact (R114 (b)). -/
theorem toInt_wsub_wmul (p q t u : Word) :
    (wsub (wmul p q) (wmul t u)).toInt = p.toInt * q.toInt - t.toInt * u.toInt := by
  obtain ⟨h1, h2⟩ := mul_bounds p q
  obtain ⟨h3, h4⟩ := mul_bounds t u
  rw [wsub, toInt_wmul, toInt_wmul]
  exact toInt_ofInt_wide (by norm_num at *; omega) (by norm_num at *; omega)

/-- An arithmetic shift is exact: its result always fits (R109, R110). -/
theorem toInt_asr (r : Wide) (s : Nat) : (asr r s).toInt = r.toInt / 2 ^ s := by
  have h1 := BitVec.le_toInt r; have h2 := BitVec.toInt_lt (x := r)
  have hp : (1 : Int) ≤ 2 ^ s := one_le_pow₀ (by norm_num)
  norm_num at h1 h2
  apply toInt_ofInt_wide
  · rw [Int.le_ediv_iff_mul_le (by omega)]; norm_num; nlinarith
  · rw [Int.ediv_lt_iff_lt_mul (by omega)]; norm_num; nlinarith

@[simp] theorem asr_zero (r : Wide) : asr r 0 = r := by
  simp [asr]

/-- The quotient by a nonzero divisor (R106). -/
theorem fixDiv_of_ne_zero (a : Word) {b : Word} (h : b ≠ 0) :
    fixDiv a b = BitVec.ofInt 32 ((a.toInt * 2 ^ 16).tdiv b.toInt) := by
  rw [fixDiv, if_neg h]

/-- A coarse step of the shift search (R113). -/
theorem shiftSearch_coarse (n s : Nat) {m : Word} (h : 0x100 ≤ m.toNat) :
    shiftSearch (n + 1) s m = shiftSearch n (s + 8) (m >>> 8) := by
  rw [shiftSearch, if_pos h]

/-- The end of the shift search: the remaining value fits a byte (R113). -/
theorem shiftSearch_fine (n s : Nat) {m : Word} (h : m.toNat < 0x100) :
    shiftSearch n s m = s + tableEntry (m.setWidth 8) := by
  cases n with
  | zero => rfl
  | succ n => rw [shiftSearch, if_neg (by omega)]

end Sys2Proof.Machine
end

