-- ==== Sys2Proof/Laws/State.lean ====
section
/-! SUPPORT. What each named update of State leaves in each field. -/

namespace Sys2Proof.Machine

@[simp] theorem writeV_vregs (s : State) (r : VReg) (v : FixedVector) : (writeV s r v).vregs = s.vregs.set r v := rfl
@[simp] theorem writeV_sregs (s : State) (r : VReg) (v : FixedVector) : (writeV s r v).sregs = s.sregs := rfl
@[simp] theorem writeV_dz (s : State) (r : VReg) (v : FixedVector) : (writeV s r v).dz = s.dz := rfl
@[simp] theorem writeV_ill (s : State) (r : VReg) (v : FixedVector) : (writeV s r v).ill = s.ill := rfl
@[simp] theorem writeV_dzie (s : State) (r : VReg) (v : FixedVector) : (writeV s r v).dzie = s.dzie := rfl
@[simp] theorem writeV_illie (s : State) (r : VReg) (v : FixedVector) : (writeV s r v).illie = s.illie := rfl
@[simp] theorem writeV_fcmd (s : State) (r : VReg) (v : FixedVector) : (writeV s r v).fcmd = s.fcmd := rfl
@[simp] theorem writeV_pending (s : State) (r : VReg) (v : FixedVector) : (writeV s r v).pending = s.pending := rfl
@[simp] theorem writeV_reply (s : State) (r : VReg) (v : FixedVector) : (writeV s r v).reply = s.reply := rfl
@[simp] theorem writeV_resets (s : State) (r : VReg) (v : FixedVector) : (writeV s r v).resets = s.resets := rfl

@[simp] theorem writeS_vregs (s : State) (r : SReg) (w : Word) : (writeS s r w).vregs = s.vregs := rfl
@[simp] theorem writeS_sregs (s : State) (r : SReg) (w : Word) : (writeS s r w).sregs = s.sregs.set r w := rfl
@[simp] theorem writeS_dz (s : State) (r : SReg) (w : Word) : (writeS s r w).dz = s.dz := rfl
@[simp] theorem writeS_ill (s : State) (r : SReg) (w : Word) : (writeS s r w).ill = s.ill := rfl
@[simp] theorem writeS_dzie (s : State) (r : SReg) (w : Word) : (writeS s r w).dzie = s.dzie := rfl
@[simp] theorem writeS_illie (s : State) (r : SReg) (w : Word) : (writeS s r w).illie = s.illie := rfl
@[simp] theorem writeS_fcmd (s : State) (r : SReg) (w : Word) : (writeS s r w).fcmd = s.fcmd := rfl
@[simp] theorem writeS_pending (s : State) (r : SReg) (w : Word) : (writeS s r w).pending = s.pending := rfl
@[simp] theorem writeS_reply (s : State) (r : SReg) (w : Word) : (writeS s r w).reply = s.reply := rfl
@[simp] theorem writeS_resets (s : State) (r : SReg) (w : Word) : (writeS s r w).resets = s.resets := rfl

@[simp] theorem raiseFault_divideByZero_vregs (w : Word) (s : State) : (raiseFault .divideByZero w s).vregs = s.vregs := rfl
@[simp] theorem raiseFault_divideByZero_sregs (w : Word) (s : State) : (raiseFault .divideByZero w s).sregs = s.sregs := rfl
@[simp] theorem raiseFault_divideByZero_dz (w : Word) (s : State) : (raiseFault .divideByZero w s).dz = true := rfl
@[simp] theorem raiseFault_divideByZero_ill (w : Word) (s : State) : (raiseFault .divideByZero w s).ill = s.ill := rfl
@[simp] theorem raiseFault_divideByZero_dzie (w : Word) (s : State) : (raiseFault .divideByZero w s).dzie = s.dzie := rfl
@[simp] theorem raiseFault_divideByZero_illie (w : Word) (s : State) : (raiseFault .divideByZero w s).illie = s.illie := rfl
@[simp] theorem raiseFault_divideByZero_fcmd (w : Word) (s : State) : (raiseFault .divideByZero w s).fcmd = w := rfl
@[simp] theorem raiseFault_divideByZero_pending (w : Word) (s : State) : (raiseFault .divideByZero w s).pending = s.pending := rfl
@[simp] theorem raiseFault_divideByZero_reply (w : Word) (s : State) : (raiseFault .divideByZero w s).reply = s.reply := rfl
@[simp] theorem raiseFault_divideByZero_resets (w : Word) (s : State) : (raiseFault .divideByZero w s).resets = s.resets := rfl

@[simp] theorem raiseFault_illegalCommand_vregs (w : Word) (s : State) : (raiseFault .illegalCommand w s).vregs = s.vregs := rfl
@[simp] theorem raiseFault_illegalCommand_sregs (w : Word) (s : State) : (raiseFault .illegalCommand w s).sregs = s.sregs := rfl
@[simp] theorem raiseFault_illegalCommand_dz (w : Word) (s : State) : (raiseFault .illegalCommand w s).dz = s.dz := rfl
@[simp] theorem raiseFault_illegalCommand_ill (w : Word) (s : State) : (raiseFault .illegalCommand w s).ill = true := rfl
@[simp] theorem raiseFault_illegalCommand_dzie (w : Word) (s : State) : (raiseFault .illegalCommand w s).dzie = s.dzie := rfl
@[simp] theorem raiseFault_illegalCommand_illie (w : Word) (s : State) : (raiseFault .illegalCommand w s).illie = s.illie := rfl
@[simp] theorem raiseFault_illegalCommand_fcmd (w : Word) (s : State) : (raiseFault .illegalCommand w s).fcmd = w := rfl
@[simp] theorem raiseFault_illegalCommand_pending (w : Word) (s : State) : (raiseFault .illegalCommand w s).pending = s.pending := rfl
@[simp] theorem raiseFault_illegalCommand_reply (w : Word) (s : State) : (raiseFault .illegalCommand w s).reply = s.reply := rfl
@[simp] theorem raiseFault_illegalCommand_resets (w : Word) (s : State) : (raiseFault .illegalCommand w s).resets = s.resets := rfl

@[simp] theorem acknowledge_vregs (data : Word) (s : State) : (acknowledge data s).vregs = s.vregs := rfl
@[simp] theorem acknowledge_sregs (data : Word) (s : State) : (acknowledge data s).sregs = s.sregs := rfl
@[simp] theorem acknowledge_dz (data : Word) (s : State) : (acknowledge data s).dz = (s.dz && !data.getLsbD 0) := rfl
@[simp] theorem acknowledge_ill (data : Word) (s : State) : (acknowledge data s).ill = (s.ill && !data.getLsbD 1) := rfl
@[simp] theorem acknowledge_dzie (data : Word) (s : State) : (acknowledge data s).dzie = s.dzie := rfl
@[simp] theorem acknowledge_illie (data : Word) (s : State) : (acknowledge data s).illie = s.illie := rfl
@[simp] theorem acknowledge_fcmd (data : Word) (s : State) : (acknowledge data s).fcmd = s.fcmd := rfl
@[simp] theorem acknowledge_pending (data : Word) (s : State) : (acknowledge data s).pending = s.pending := rfl
@[simp] theorem acknowledge_reply (data : Word) (s : State) : (acknowledge data s).reply = s.reply := rfl
@[simp] theorem acknowledge_resets (data : Word) (s : State) : (acknowledge data s).resets = s.resets := rfl

@[simp] theorem writeCtrl_vregs (data : Word) (s : State) : (writeCtrl data s).vregs = s.vregs := rfl
@[simp] theorem writeCtrl_sregs (data : Word) (s : State) : (writeCtrl data s).sregs = s.sregs := rfl
@[simp] theorem writeCtrl_dz (data : Word) (s : State) : (writeCtrl data s).dz = s.dz := rfl
@[simp] theorem writeCtrl_ill (data : Word) (s : State) : (writeCtrl data s).ill = s.ill := rfl
@[simp] theorem writeCtrl_dzie (data : Word) (s : State) : (writeCtrl data s).dzie = data.getLsbD 0 := rfl
@[simp] theorem writeCtrl_illie (data : Word) (s : State) : (writeCtrl data s).illie = data.getLsbD 1 := rfl
@[simp] theorem writeCtrl_fcmd (data : Word) (s : State) : (writeCtrl data s).fcmd = s.fcmd := rfl
@[simp] theorem writeCtrl_pending (data : Word) (s : State) : (writeCtrl data s).pending = s.pending := rfl
@[simp] theorem writeCtrl_reply (data : Word) (s : State) : (writeCtrl data s).reply = s.reply := rfl
@[simp] theorem writeCtrl_resets (data : Word) (s : State) : (writeCtrl data s).resets = s.resets := rfl

@[simp] theorem deliverCommand_vregs (w : Word) (s : State) : (deliverCommand w s).vregs = s.vregs := rfl
@[simp] theorem deliverCommand_sregs (w : Word) (s : State) : (deliverCommand w s).sregs = s.sregs := rfl
@[simp] theorem deliverCommand_dz (w : Word) (s : State) : (deliverCommand w s).dz = s.dz := rfl
@[simp] theorem deliverCommand_ill (w : Word) (s : State) : (deliverCommand w s).ill = s.ill := rfl
@[simp] theorem deliverCommand_dzie (w : Word) (s : State) : (deliverCommand w s).dzie = s.dzie := rfl
@[simp] theorem deliverCommand_illie (w : Word) (s : State) : (deliverCommand w s).illie = s.illie := rfl
@[simp] theorem deliverCommand_fcmd (w : Word) (s : State) : (deliverCommand w s).fcmd = s.fcmd := rfl
@[simp] theorem deliverCommand_pending (w : Word) (s : State) : (deliverCommand w s).pending = .memWrite 0x50 w :: s.pending := rfl
@[simp] theorem deliverCommand_reply (w : Word) (s : State) : (deliverCommand w s).reply = s.reply := rfl
@[simp] theorem deliverCommand_resets (w : Word) (s : State) : (deliverCommand w s).resets = s.resets := rfl

@[simp] theorem takeReset_vregs (s : State) : (takeReset s).vregs = (State.ofReset (s.resets + 1)).vregs := rfl
@[simp] theorem takeReset_sregs (s : State) : (takeReset s).sregs = (State.ofReset (s.resets + 1)).sregs := rfl
@[simp] theorem takeReset_dz (s : State) : (takeReset s).dz = false := rfl
@[simp] theorem takeReset_ill (s : State) : (takeReset s).ill = false := rfl
@[simp] theorem takeReset_dzie (s : State) : (takeReset s).dzie = false := rfl
@[simp] theorem takeReset_illie (s : State) : (takeReset s).illie = false := rfl
@[simp] theorem takeReset_fcmd (s : State) : (takeReset s).fcmd = 0x00000000 := rfl
@[simp] theorem takeReset_pending (s : State) : (takeReset s).pending = s.pending := rfl
@[simp] theorem takeReset_reply (s : State) : (takeReset s).reply = none := rfl
@[simp] theorem takeReset_resets (s : State) : (takeReset s).resets = s.resets + 1 := rfl

/-- The data words of a reset are the free values of its draw, each at its own place of the register map. -/
theorem ofReset_vregs (draw : Nat) (r : VReg) : (State.ofReset draw).vregs[r] =
    ⟨Config.resetWord draw (4 * r.val), Config.resetWord draw (4 * r.val + 1), Config.resetWord draw (4 * r.val + 2)⟩ := by
  simp [State.ofReset]

theorem ofReset_sregs (draw : Nat) (r : SReg) : (State.ofReset draw).sregs[r] = Config.resetWord draw (0x40 + r.val) := by
  simp [State.ofReset]

end Sys2Proof.Machine
end

