-- ==== Sys2Proof/Laws/Operands.lean ====
section
/-! SUPPORT. The register files: read after write, and what a write of one file leaves of the other. -/

namespace Sys2Proof.Machine

theorem readV_writeV (s : State) (r q : VReg) (v : FixedVector) :
    readV (writeV s r v) q = if q = r then v else readV s q := by
  simp [readV, writeV, Vector.getElem_set, Fin.ext_iff, eq_comm]

@[simp] theorem readV_writeV_same (s : State) (r : VReg) (v : FixedVector) : readV (writeV s r v) r = v := by
  simp [readV_writeV]

theorem readV_writeV_other (s : State) {r q : VReg} (v : FixedVector) (h : q ≠ r) :
    readV (writeV s r v) q = readV s q := by
  simp [readV_writeV, h]

theorem readS_writeS (s : State) (r q : SReg) (w : Word) : readS (writeS s r w) q = if q = r then w else readS s q := by
  simp [readS, writeS, Vector.getElem_set, Fin.ext_iff, eq_comm]

@[simp] theorem readS_writeS_same (s : State) (r : SReg) (w : Word) : readS (writeS s r w) r = w := by
  simp [readS_writeS]

theorem readS_writeS_other (s : State) {r q : SReg} (w : Word) (h : q ≠ r) : readS (writeS s r w) q = readS s q := by
  simp [readS_writeS, h]

@[simp] theorem readS_writeV (s : State) (r : VReg) (v : FixedVector) (q : SReg) :
    readS (writeV s r v) q = readS s q := rfl

@[simp] theorem readV_writeS (s : State) (r : SReg) (w : Word) (q : VReg) : readV (writeS s r w) q = readV s q := rfl

/-- Writing a register twice keeps the second value only. -/
@[simp] theorem writeV_writeV (s : State) (r : VReg) (v w : FixedVector) : writeV (writeV s r v) r w = writeV s r w := by
  simp [writeV]

/-- Writing back what a register holds changes nothing. -/
@[simp] theorem writeV_readV (s : State) (r : VReg) : writeV s r (readV s r) = s := by
  simp [writeV, readV]

@[simp] theorem readV_raiseFault (c : FaultCause) (w : Word) (s : State) (r : VReg) :
    readV (raiseFault c w s) r = readV s r := by
  cases c <;> rfl

@[simp] theorem readS_raiseFault (c : FaultCause) (w : Word) (s : State) (r : SReg) :
    readS (raiseFault c w s) r = readS s r := by
  cases c <;> rfl

@[simp] theorem component_withComponent (v : FixedVector) (c k : Component) (w : Word) :
    component (withComponent v c w) k = if k = c then w else component v k := by
  cases c <;> cases k <;> rfl

end Sys2Proof.Machine
end

