-- ==== Sys2Proof/Laws/Ops.lean ====
section
/-! SUPPORT. The shared operations: the register map index by index, and everything one event or one command can do. -/

namespace Sys2Proof.Machine

/-- The three words of a vector register in the map (20_memory.md R51). -/
theorem mapEntry_vector (r : VReg) :
    mapEntry (BitVec.ofNat 8 (4 * r.val)) = .vector r .x ∧ mapEntry (BitVec.ofNat 8 (4 * r.val + 1)) = .vector r .y ∧
      mapEntry (BitVec.ofNat 8 (4 * r.val + 2)) = .vector r .z := by
  revert r; decide

/-- The word of a scalar register in the map (20_memory.md R51). -/
theorem mapEntry_scalar (r : SReg) : mapEntry (BitVec.ofNat 8 (0x40 + r.val)) = .scalar r := by
  revert r; decide

/-- The pad word of a vector register's slot names nothing (20_memory.md R51, 41_basic_vector_ops.md R137). -/
theorem mapEntry_pad (r : VReg) : mapEntry (BitVec.ofNat 8 (4 * r.val + 3)) = .ignored := by
  revert r; decide

/-- The offset of a component's word in its register's slot (20_memory.md R51). -/
def componentOffset (c : Component) : Nat :=
  match c with
  | .x => 0
  | .y => 1
  | .z => 2

/-- The index of what an index names (20_memory.md R51). -/
def entryIndex (e : MapEntry) : Nat :=
  match e with
  | .vector r c => 4 * r.val + componentOffset c
  | .scalar r => 0x40 + r.val
  | .cmd => 0x50
  | .status => 0x51
  | .ctrl => 0x52
  | .fcmd => 0x53
  | .id => 0x54
  | .ignored => 0x55

/-- The pad and reserved indices are those that name nothing (20_memory.md R51). -/
theorem mapEntry_eq_ignored (idx : BitVec 8) :
    mapEntry idx = .ignored ↔ 0x55 ≤ idx.toNat ∨ (idx.toNat < 0x40 ∧ idx.toNat % 4 = 3) := by
  revert idx; decide

/-- The map read backwards: every other index is the one index of what it names, so no two share a name. -/
theorem toNat_eq_entryIndex (idx : BitVec 8) : mapEntry idx = .ignored ∨ idx.toNat = entryIndex (mapEntry idx) := by
  revert idx; decide

/-- The index of CMD is the only one that names it. -/
theorem mapEntry_eq_cmd {idx : BitVec 8} : mapEntry idx = .cmd ↔ idx = 0x50 := by
  revert idx; decide

@[simp] theorem mapEntry_cmd : mapEntry 0x50 = .cmd := by decide

/-- A write to CMD runs the command or raises IllegalCommand (20_memory.md R61). -/
theorem memWrite_cmd (w : Word) (s : State) : memWrite 0x50 w s = writeCmd w s := rfl

/-- A write to any other index is the map's own write (20_memory.md R53). -/
theorem memWrite_of_ne {idx : BitVec 8} (h : idx ≠ 0x50) (data : Word) (s : State) :
    memWrite idx data s = .next (mapWrite s idx data) := by
  have h' : mapEntry idx ≠ .cmd := fun e => h (mapEntry_eq_cmd.mp e)
  unfold memWrite; split <;> simp_all

/-- Normalizing in place either raises DivideByZero with nothing else written or writes the destination alone
(41_basic_vector_ops.md R136). -/
theorem normalizeInPlace_cases (w : Word) (d : VReg) (s : State) :
    (magnitude (readV s d) = 0 ∧ normalizeInPlace w d s = raiseFault .divideByZero w s) ∨
      (magnitude (readV s d) ≠ 0 ∧ normalizeInPlace w d s = writeV s d (vecDiv (readV s d) (magnitude (readV s d)))) := by
  by_cases h : magnitude (readV s d) = 0
  · exact .inl ⟨h, if_pos h⟩
  · exact .inr ⟨h, if_neg h⟩

/-- Everything a command can do: write its vector destination, write its scalar destination, or raise DivideByZero
after at most one write of its vector destination (41_basic_vector_ops.md R130, 60_exceptions.md R170). -/
theorem exec_cases (i : Instr) (s : State) :
    (∃ d v, (∃ a b, i = .vadd d a b ∨ i = .vsub d a b ∨ i = .vscl d a b) ∧ exec i s = .next (writeV s d v)) ∨
    (∃ d w, (∃ a b, i = .vdot d a b ∨ i = .vmag d a) ∧ exec i s = .next (writeS s d w)) ∨
    (∃ d, i = .vnrm d ∧ exec i s = .next (normalizeInPlace (encode i) d s)) ∨
    (∃ d a b c, i = .nrmq d a b c ∧
      exec i s = .next (writeV s d (quick (readV s a) (readV s b) (readV s c)))) ∨
    (∃ d a b c, i = .nrml d a b c ∧
      exec i s = .next (normalizeInPlace (encode i) d (writeV s d (quick (readV s a) (readV s b) (readV s c))))) := by
  cases i with
  | vadd d a b => exact .inl ⟨d, _, ⟨a, b, .inl rfl⟩, rfl⟩
  | vsub d a b => exact .inl ⟨d, _, ⟨a, b, .inr (.inl rfl)⟩, rfl⟩
  | vscl d a b => exact .inl ⟨d, _, ⟨a, b, .inr (.inr rfl)⟩, rfl⟩
  | vdot d a b => exact .inr (.inl ⟨d, _, ⟨a, b, .inl rfl⟩, rfl⟩)
  | vmag d a => exact .inr (.inl ⟨d, _, ⟨a, 0, .inr rfl⟩, rfl⟩)
  | vnrm d => exact .inr (.inr (.inl ⟨d, rfl, rfl⟩))
  | nrmq d a b c => exact .inr (.inr (.inr (.inl ⟨d, a, b, c, rfl, rfl⟩)))
  | nrml d a b c => exact .inr (.inr (.inr (.inr ⟨d, a, b, c, rfl, rfl⟩)))

/-- A step takes the first event off and serves it (20_memory.md R50). -/
theorem step_of_pending {s : State} {ev : HostEvent} {rest : List HostEvent} (h : s.pending = ev :: rest) :
    step s = takeEvent ev { s with pending := rest } := by
  rw [step, serveNext, h]

/-- Everything a step can do (20_memory.md R50, R52, R53, R61; 70_reset_and_hazards.md R200). -/
theorem step_cases (s : State) :
    (s.pending = [] ∧ step s = .next s) ∨
    (∃ idx rest, s.pending = .memRead idx :: rest ∧
      step s = .next { s with pending := rest, reply := some (mapRead s idx) }) ∨
    (∃ idx data rest, idx ≠ 0x50 ∧ s.pending = .memWrite idx data :: rest ∧
      step s = .next (mapWrite { s with pending := rest, reply := none } idx data)) ∨
    (∃ w rest i, s.pending = .memWrite 0x50 w :: rest ∧ decode w = .ok i ∧
      step s = exec i { s with pending := rest, reply := none }) ∨
    (∃ w rest e, s.pending = .memWrite 0x50 w :: rest ∧ decode w = .error e ∧
      step s = .next (raiseFault .illegalCommand w { s with pending := rest, reply := none })) ∨
    (∃ rest, s.pending = .reset :: rest ∧ step s = .next (takeReset { s with pending := rest })) := by
  unfold step serveNext
  split
  · exact .inl ⟨by assumption, rfl⟩
  · rename_i ev rest h
    cases ev with
    | memRead idx => exact .inr (.inl ⟨idx, rest, h, rfl⟩)
    | reset => exact .inr (.inr (.inr (.inr (.inr ⟨rest, h, rfl⟩))))
    | memWrite idx data =>
      by_cases hi : idx = 0x50
      · subst hi
        cases hd : decode data with
        | ok i => exact .inr (.inr (.inr (.inl ⟨data, rest, i, h, hd, by rw [takeEvent, memWrite_cmd, writeCmd, hd]⟩)))
        | error e =>
          exact .inr (.inr (.inr (.inr (.inl ⟨data, rest, e, h, hd, by rw [takeEvent, memWrite_cmd, writeCmd, hd]⟩))))
      · exact .inr (.inr (.inl ⟨idx, data, rest, hi, h, by rw [takeEvent, memWrite_of_ne hi]⟩))

end Sys2Proof.Machine
end

