-- ==== Sys2Proof/Laws/PerInstr.lean ====
section
/-! SUPPORT. A statement about every command as syntax, one lemma per constructor: its fields pass the check of
WellFormed (30_encoding.md R81, R84), so that no command has an ill-formed encoding. -/

namespace Sys2Proof.Laws.FieldsWellFormed

/-- The fields of the command's word are those of a command. -/
def Statement (i : Instr) : Prop := (splitFields (encode i)).wellFormed = true

theorem vadd (d a b : VReg) : Statement (.vadd d a b) := by
  simp [Statement, encode, instrFields, Fields.wellFormed, opcodeFormat, Format.unusedZero]

theorem vsub (d a b : VReg) : Statement (.vsub d a b) := by
  simp [Statement, encode, instrFields, Fields.wellFormed, opcodeFormat, Format.unusedZero]

theorem vscl (d a : VReg) (b : SReg) : Statement (.vscl d a b) := by
  simp [Statement, encode, instrFields, Fields.wellFormed, opcodeFormat, Format.unusedZero]

theorem vdot (d : SReg) (a b : VReg) : Statement (.vdot d a b) := by
  simp [Statement, encode, instrFields, Fields.wellFormed, opcodeFormat, Format.unusedZero]

theorem vmag (d : SReg) (a : VReg) : Statement (.vmag d a) := by
  simp [Statement, encode, instrFields, Fields.wellFormed, opcodeFormat, Format.unusedZero]

theorem vnrm (d : VReg) : Statement (.vnrm d) := by
  simp [Statement, encode, instrFields, Fields.wellFormed, opcodeFormat, Format.unusedZero]

theorem nrmq (d a b c : VReg) : Statement (.nrmq d a b c) := by
  simp [Statement, encode, instrFields, Fields.wellFormed, opcodeFormat, Format.unusedZero]

theorem nrml (d a b c : VReg) : Statement (.nrml d a b c) := by
  simp [Statement, encode, instrFields, Fields.wellFormed, opcodeFormat, Format.unusedZero]

end Sys2Proof.Laws.FieldsWellFormed
end

