-- ==== Sys2Proof/Tests/Slice0.lean ====
section
/-! SUPPORT. Tests: expected results from the spec's own examples (the row of 95_test_vectors.md or the rule is named),
one step each; and for every obligation with hypotheses a witness that they can be met. -/

namespace Sys2Proof.Tests

open Sys2Proof Sys2Proof.Machine Sys2Proof.Safety

/-! WellFormed: an ill-formed term for each check, and one that passes it. -/

theorem test_wellFormed_vadd : (⟨0x01, 3, 1, 2, 0, 0⟩ : Fields).wellFormed = true := by decide
theorem test_wellFormed_nrmq_uses_all : (⟨0x07, 15, 15, 15, 15, 0⟩ : Fields).wellFormed = true := by decide
theorem test_illFormed_z : (⟨0x01, 3, 1, 2, 0, 1⟩ : Fields).wellFormed = false := by decide
theorem test_illFormed_opcode_zero : (⟨0x00, 0, 0, 0, 0, 0⟩ : Fields).wellFormed = false := by decide
theorem test_illFormed_opcode_nine : (⟨0x09, 0, 0, 0, 0, 0⟩ : Fields).wellFormed = false := by decide
theorem test_illFormed_vadd_c : (⟨0x01, 3, 1, 2, 1, 0⟩ : Fields).wellFormed = false := by decide
theorem test_illFormed_vsub_c : (⟨0x02, 3, 1, 2, 15, 0⟩ : Fields).wellFormed = false := by decide
theorem test_illFormed_vscl_c : (⟨0x03, 3, 1, 2, 1, 0⟩ : Fields).wellFormed = false := by decide
theorem test_illFormed_vdot_c : (⟨0x04, 15, 15, 15, 1, 0⟩ : Fields).wellFormed = false := by decide
theorem test_illFormed_vmag_b : (⟨0x05, 15, 10, 1, 0, 0⟩ : Fields).wellFormed = false := by decide
theorem test_illFormed_vmag_c : (⟨0x05, 15, 10, 0, 1, 0⟩ : Fields).wellFormed = false := by decide
theorem test_illFormed_vnrm_a : (⟨0x06, 15, 1, 0, 0, 0⟩ : Fields).wellFormed = false := by decide
theorem test_illFormed_vnrm_b : (⟨0x06, 15, 0, 1, 0, 0⟩ : Fields).wellFormed = false := by decide
theorem test_illFormed_vnrm_c : (⟨0x06, 15, 0, 0, 1, 0⟩ : Fields).wellFormed = false := by decide
theorem test_illFormed_nrml_z : (⟨0x08, 0, 0, 0, 0, 0xFF⟩ : Fields).wellFormed = false := by decide

/-! Decode: each constructor by a word written out, OP D A B C Z, from 30_encoding.md R80 and R83 (rows E1 to E19). -/

theorem test_decode_vadd : decodeTableWord 32 0b00000001_0011_0001_0010_0000_00000000 = some (.vadd 3 1 2) := by decide
theorem test_decode_vsub : decodeTableWord 32 0b00000010_1111_0111_1110_0000_00000000 = some (.vsub 15 7 14) := by decide
theorem test_decode_vscl : decodeTableWord 32 0b00000011_0001_0010_1000_0000_00000000 = some (.vscl 1 2 8) := by decide
theorem test_decode_vdot : decodeTableWord 32 0b00000100_1111_0001_0010_0000_00000000 = some (.vdot 15 1 2) := by decide
theorem test_decode_vmag : decodeTableWord 32 0b00000101_1111_1010_0000_0000_00000000 = some (.vmag 15 10) := by decide
theorem test_decode_vnrm : decodeTableWord 32 0b00000110_1111_0000_0000_0000_00000000 = some (.vnrm 15) := by decide
theorem test_decode_nrmq : decodeTableWord 32 0b00000111_0000_0001_0010_0011_00000000 = some (.nrmq 0 1 2 3) := by decide
theorem test_decode_nrml : decodeTableWord 32 0b00001000_1000_0100_0010_0001_00000000 = some (.nrml 8 4 2 1) := by decide
theorem test_decode_refuses_op_80 : decodeTableWord 32 0x80312000 = none := by decide
theorem test_decode_refuses_all_ones : decodeTableWord 32 0xFFFFFFFF = none := by decide
theorem test_decode_refuses_vnrm_a : decodeTableWord 32 0x06F10000 = none := by decide
theorem test_encode_vadd : encode (.vadd 3 1 2) = 0x01312000 := by decide
theorem test_encode_nrmq : encode (.nrmq 0 1 2 3) = 0x07012300 := by decide

/-! A small state: `V1`, `V2`, `V3` and `S2` loaded after reset, everything else as reset leaves it. -/

/-- The loaded state. -/
def loaded (v1 v2 v3 : FixedVector) (k : Word) : State :=
  writeS (writeV (writeV (writeV State.reset 1 v1) 2 v2) 3 v3) 2 k

/-- The state a result ends in; the reset state if it stops. -/
def after (r : Result) : State :=
  match r with
  | .next t => t
  | .fault _ => State.reset
  | .refused _ => State.reset

/-- The state after one step that delivers a command word. -/
def issue (w : Nat) (s : State) : State := after (step (s.withFetchWord 32 w))

/-- The state after one step on one host event. -/
def host (ev : HostEvent) (s : State) : State := after (step { s with pending := [ev] })

/-- Row A2. -/
theorem test_vadd_wraps :
    readV (issue 0x01312000 (loaded ⟨0x7FFFFFFF, 0x80000000, 0xFFFFFFFF⟩ ⟨0x00000001, 0x80000000, 0x00000001⟩
      zeroVector 0)) 3 = ⟨0x80000000, 0x00000000, 0x00000000⟩ := by decide
/-- Row A7: the sources are read before the write. -/
theorem test_vadd_in_place :
    readV (issue 0x01111000 (loaded ⟨0x00018000, 0x40000000, 0xC0000000⟩ zeroVector zeroVector 0)) 1 =
      ⟨0x00030000, 0x80000000, 0x80000000⟩ := by decide
/-- Row A5: the first source is the minuend. -/
theorem test_vsub_order :
    readV (issue 0x02312000 (loaded ⟨0x00000000, 0x80000000, 0x7FFFFFFF⟩ ⟨0x00000001, 0x00000001, 0xFFFFFFFF⟩
      zeroVector 0)) 3 = ⟨0xFFFFFFFF, 0x7FFFFFFF, 0x80000000⟩ := by decide
/-- Row S3: minus half an ulp floors to minus one ulp. -/
theorem test_vscl_floors :
    readV (issue 0x03312000 (loaded ⟨0x00000001, 0xFFFFFFFF, 0x00000003⟩ zeroVector zeroVector 0x00008000)) 3 =
      ⟨0x00000000, 0xFFFFFFFF, 0x00000001⟩ := by decide
/-- Row S10. -/
theorem test_vscl_wraps :
    readV (issue 0x03312000 (loaded ⟨0x7FFFFFFF, 0x80000000, 0xFFFF0000⟩ zeroVector zeroVector 0x7FFFFFFF)) 3 =
      ⟨0xFFFF0000, 0x00008000, 0x80000001⟩ := by decide
/-- Row D6: three products below one ulp sum to one ulp. -/
theorem test_vdot_one_rounding :
    readS (issue 0x04012000 (loaded ⟨0x00000001, 0x00000001, 0x00000001⟩ ⟨0x00005555, 0x00005555, 0x00005556⟩
      zeroVector 0)) 0 = 0x00000001 := by decide
/-- Row D10: the accumulator passes 2^63. -/
theorem test_vdot_accumulator_wraps :
    readS (issue 0x04012000 (loaded ⟨0x7FFFFFFF, 0x7FFFFFFF, 0x7FFFFFFF⟩ ⟨0x7FFFFFFF, 0x7FFFFFFF, 0x7FFFFFFF⟩
      zeroVector 0)) 0 = 0xFFFD0000 := by decide
/-- Row M16. -/
theorem test_vmag_floor :
    readS (issue 0x05010000 (loaded ⟨0x5A82799A, 0x5A827999, 0x00000000⟩ zeroVector zeroVector 0)) 0 =
      0x7FFFFFFF := by decide
/-- Row M17: the sum is read as unsigned. -/
theorem test_vmag_unsigned :
    readS (issue 0x05010000 (loaded ⟨0x80000000, 0x80000000, 0x80000000⟩ zeroVector zeroVector 0)) 0 =
      0xDDB3D742 := by decide
/-- The example of 41_basic_vector_ops.md R138: (3.0, 4.0, 0) by 2.0 is (6.0, 8.0, 0), of magnitude 10.0. -/
theorem test_scaled_magnitude_example :
    vecScale ⟨0x00030000, 0x00040000, 0⟩ 0x00020000 = ⟨0x00060000, 0x00080000, 0⟩ ∧
      magnitude ⟨0x00060000, 0x00080000, 0⟩ = 0x000A0000 := by decide
/-- Row Z5: quotients round toward zero. -/
theorem test_vnrm_truncates :
    readV (issue 0x06100000 (loaded ⟨0xFFFF0000, 0xFFFE0000, 0x00020000⟩ zeroVector zeroVector 0)) 1 =
      ⟨0xFFFFAAAB, 0xFFFF5556, 0x0000AAAA⟩ := by decide
/-- Row Z12: DivideByZero. -/
theorem test_vnrm_zero :
    let t := issue 0x06100000 (loaded zeroVector zeroVector zeroVector 0)
    t.dz = true ∧ t.ill = false ∧ t.fcmd = 0x06100000 ∧ readV t 1 = zeroVector := by decide
/-- Row Q9: a shift of 4 and floors of negative components. -/
theorem test_nrmq_shift_and_floor :
    readV (issue 0x07012300 (loaded ⟨0x00000011, 0x00000022, 0x00000033⟩ ⟨0x00010011, 0x00020022, 0x00000033⟩
      ⟨0x00012345, 0xFFFF0003, 0x00045678⟩ 0)) 0 = ⟨0x00008AC8, 0xFFFFBA9B, 0xFFFFCB97⟩ := by decide
/-- Row Q14: `m = 0x100`, the boundary of 90_conflicts.md C1. -/
theorem test_nrmq_coarse_boundary :
    readV (issue 0x07012300 (loaded zeroVector ⟨0x00080000, 0, 0⟩ ⟨0x00080000, 0x00100000, 0⟩ 0)) 0 =
      ⟨0, 0, 0x00008000⟩ := by decide
/-- Row Q10. -/
theorem test_nrml_large_coordinates :
    readV (issue 0x08012300 (loaded ⟨0xD1200000, 0x0BB80000, 0x00FA8000⟩ ⟨0x23284000, 0xC5680000, 0x00000000⟩
      ⟨0x00640000, 0x3A980000, 0xE4A80000⟩ 0)) 0 = ⟨0x000042ED, 0x00004ACE, 0x0000EB81⟩ := by decide
/-- Row Q17: DivideByZero with the quick result stored. -/
theorem test_nrml_collinear :
    let t := issue 0x08012300 (loaded ⟨0x00010000, 0x00010000, 0x00010000⟩ ⟨0x00020000, 0x00020000, 0x00020000⟩
      ⟨0x00030000, 0x00030000, 0x00030000⟩ 0)
    t.dz = true ∧ t.fcmd = 0x08012300 ∧ readV t 0 = zeroVector := by decide
/-- Program P4, transaction 32: an unused field that is not zero. -/
theorem test_illegal_command :
    let t := issue 0x01312F00 (loaded zeroVector zeroVector ⟨0x00030000, 0, 0⟩ 0)
    t.ill = true ∧ t.dz = false ∧ t.fcmd = 0x01312F00 ∧ readV t 3 = ⟨0x00030000, 0, 0⟩ := by decide

/-! The host port (rows H1 to H16). -/

theorem test_read_id : (host (.memRead 0x54) State.reset).reply = some 0x46565501 := by decide
theorem test_read_status : (host (.memRead 0x51) { State.reset with ill := true }).reply = some 2 := by decide
theorem test_write_status_clears_selected :
    let t := host (.memWrite 0x51 0x00000001) { State.reset with dz := true, ill := true }
    t.dz = false ∧ t.ill = true := by decide
theorem test_write_ctrl_keeps_two_bits : mapRead (host (.memWrite 0x52 0xFFFFFFFF) State.reset) 0x52 = 3 := by decide
theorem test_irq_follows_enable :
    irq (host (.memWrite 0x52 0x00000002) { State.reset with ill := true }) = true := by decide
theorem test_write_component :
    let t := host (.memWrite 0x09 0x12345678) (loaded zeroVector zeroVector zeroVector 0)
    readV t 2 = ⟨0, 0x12345678, 0⟩ ∧ mapRead t 0x09 = 0x12345678 := by decide
theorem test_write_last_scalar : readS (host (.memWrite 0x4F 0xCAFEF00D) State.reset) 15 = 0xCAFEF00D := by decide
theorem test_pad_reads_zero : mapRead (host (.memWrite 0x3F 0xFFFFFFFF) State.reset) 0x3F = 0 := by decide
theorem test_fcmd_is_read_only : (host (.memWrite 0x53 0xDEADBEEF) State.reset).fcmd = 0 := by decide
theorem test_reset_clears_flags :
    let t := host .reset { State.reset with dz := true, ill := true, dzie := true, illie := true, fcmd := 7 }
    t.dz = false ∧ t.ill = false ∧ t.dzie = false ∧ t.illie = false ∧ t.fcmd = 0 ∧ t.resets = 1 := by decide

/-! Witnesses: the hypotheses of each obligation are met together, clause by clause. -/

theorem witness_EncodeOfDecodedIsTheWord : decode 0x01312000 = .ok (.vadd 3 1 2) := by rfl

theorem witness_StepRunsTheDecodedCommand :
    ∃ s : State, s.pending = [.memWrite 0x50 0x05FA0000] ∧ decode 0x05FA0000 = .ok (.vmag 15 10) :=
  ⟨{ State.reset with pending := [.memWrite 0x50 0x05FA0000] }, rfl, rfl⟩

theorem witness_IllegalWordRaisesIllegalCommand :
    ∃ s : State, s.pending = [.memWrite 0x50 0x00000000] ∧ IllegalWord 0x00000000 :=
  ⟨{ State.reset with pending := [.memWrite 0x50 0x00000000] }, rfl, .inl rfl⟩

/-- One word for each way to be illegal, at the ends of the ranges. -/
theorem witness_IllegalWord_clauses : IllegalWord 0x09000000 ∧ IllegalWord 0xFFFFFFFF ∧ IllegalWord 0x08000001 ∧
    IllegalWord 0x01000100 ∧ IllegalWord 0x04FFFF00 ∧ IllegalWord 0x05001000 ∧ IllegalWord 0x05000100 ∧
    IllegalWord 0x06010000 ∧ IllegalWord 0x06001000 ∧ IllegalWord 0x06000100 ∧ ¬ IllegalWord 0x08FFFF00 := by
  refine ⟨?_, ?_, ?_, ?_, ?_, ?_, ?_, ?_, ?_, ?_, ?_⟩ <;> unfold IllegalWord <;> decide

theorem witness_StepTakesOneEventInOrder :
    (∃ s t : State, s.pending = [.memRead 0x54, .reset] ∧ step s = .next t) ∧ State.reset.pending = [] :=
  ⟨⟨{ State.reset with pending := [.memRead 0x54, .reset] }, _, rfl, rfl⟩, rfl⟩

/-- A read of each kind of index: the first and last components, the first and last scalar, the control words, and
pad, CMD and reserved indices. -/
theorem witness_ReadReturnsTheMapValue :
    ((0x00 : BitVec 8).toNat = 4 * (0 : VReg).val ∧ (0x3D : BitVec 8).toNat = 4 * (15 : VReg).val + 1 ∧
      (0x3E : BitVec 8).toNat = 4 * (15 : VReg).val + 2 ∧ (0x40 : BitVec 8).toNat = 0x40 + (0 : SReg).val ∧
      (0x4F : BitVec 8).toNat = 0x40 + (15 : SReg).val ∧ 0x55 ≤ (0xFF : BitVec 8).toNat ∧
      ((0x3F : BitVec 8).toNat < 0x40 ∧ (0x3F : BitVec 8).toNat % 4 = 3)) ∧
    ∀ idx : BitVec 8, ∃ s : State, s.pending = [.memRead idx] :=
  ⟨by decide, fun idx => ⟨{ State.reset with pending := [.memRead idx] }, rfl⟩⟩

/-- A write to each kind of index, with a word that decodes and one that does not for CMD. -/
theorem witness_WriteUpdatesTheMap :
    (∀ (idx : BitVec 8) (data : Word), ∃ s : State, s.pending = [.memWrite idx data]) ∧
    (0x3C : BitVec 8).toNat = 4 * (15 : VReg).val ∧ (0x01 : BitVec 8).toNat = 4 * (0 : VReg).val + 1 ∧
    (0x3E : BitVec 8).toNat = 4 * (15 : VReg).val + 2 ∧ (0x4F : BitVec 8).toNat = 0x40 + (15 : SReg).val ∧
    decode 0x06F00000 = .ok (.vnrm 15) ∧ decode 0xFFFFFFFF = .error .mustBeZeroByte ∧
    ((0x03 : BitVec 8).toNat < 0x40 ∧ (0x03 : BitVec 8).toNat % 4 = 3) ∧ 0x55 ≤ (0x55 : BitVec 8).toNat :=
  ⟨fun idx data => ⟨{ State.reset with pending := [.memWrite idx data] }, rfl⟩, by decide, by decide, by decide,
    by decide, rfl, rfl, by decide, by decide⟩

theorem witness_DataWordReadsAsWritten :
    (∃ s t : State, s.pending = [.memWrite 0x3E 0x80000000] ∧ step s = .next t ∧
      (0x3E : BitVec 8).toNat < 0x40 ∧ (0x3E : BitVec 8).toNat % 4 ≠ 3) ∧
    ∃ s t : State, s.pending = [.memWrite 0x4F 7] ∧ step s = .next t ∧
      0x40 ≤ (0x4F : BitVec 8).toNat ∧ (0x4F : BitVec 8).toNat < 0x50 :=
  ⟨⟨{ State.reset with pending := [.memWrite 0x3E 0x80000000] }, _, rfl, rfl, by decide, by decide⟩,
    ⟨{ State.reset with pending := [.memWrite 0x4F 7] }, _, rfl, rfl, by decide, by decide⟩⟩

theorem witness_ResetEventClearsTheBlock : ∃ s : State, s.pending = [.reset, .memRead 0x51] :=
  ⟨{ State.reset with pending := [.reset, .memRead 0x51] }, rfl⟩

theorem witness_FaultFlagsAreSticky :
    ∃ s t : State, step s = .next t ∧ s.dz = true ∧ s.ill = true ∧ s.pending = [.memWrite 0x51 1] :=
  ⟨{ State.reset with dz := true, ill := true, pending := [.memWrite 0x51 1] }, _, rfl, rfl, rfl, rfl⟩

/-- The three ways to lose `FaultFree`: an illegal word, VNRM of (0, 0, 0), NRML of three equal points. -/
theorem witness_FaultFreeIsLostOnlyByAFault :
    (∃ s t : State, FaultFree s ∧ step s = .next t ∧ ¬ FaultFree t ∧ s.pending = [.memWrite 0x50 0]) ∧
    (∃ s t : State, FaultFree s ∧ step s = .next t ∧ ¬ FaultFree t ∧ s.pending = [.memWrite 0x50 0x06100000]) ∧
    (∃ s t : State, FaultFree s ∧ step s = .next t ∧ ¬ FaultFree t ∧ s.pending = [.memWrite 0x50 0x08412300]) := by
  unfold FaultFree
  exact ⟨⟨{ State.reset with pending := [.memWrite 0x50 0] }, _, ⟨rfl, rfl⟩, rfl, by decide, rfl⟩,
    ⟨{ loaded zeroVector zeroVector zeroVector 0 with pending := [.memWrite 0x50 0x06100000] }, _, ⟨rfl, rfl⟩, rfl,
      by decide, rfl⟩,
    ⟨{ loaded zeroVector zeroVector zeroVector 0 with pending := [.memWrite 0x50 0x08412300] }, _, ⟨rfl, rfl⟩, rfl,
      by decide, rfl⟩⟩

/-- The invariant holds with a recorded VNRM word, and a step from there. -/
theorem witness_FcmdKeepsAFaultingWord :
    ∃ s t : State, FcmdCanHaveFaulted s ∧ s.fcmd = 0x06100000 ∧ step s = .next t :=
  ⟨{ State.reset with fcmd := 0x06100000, pending := [.memWrite 0x50 0] }, _, trivial, rfl, rfl⟩

theorem witness_IrqChangesOnlyByControlWrites : ∃ s t : State, step s = .next t ∧ irq t ≠ irq s :=
  ⟨{ State.reset with ill := true, pending := [.memWrite 0x52 2] }, _, rfl, by decide⟩

/-- A register with magnitude 0 and one with magnitude 1. -/
theorem witness_VnrmDividesByTheMagnitude :
    IsMagnitude (ints (readV (loaded zeroVector zeroVector zeroVector 0) 1)) 0 ∧
    IsMagnitude (ints (readV (loaded ⟨1, 1, 1⟩ zeroVector zeroVector 0) 1)) 1 := by
  unfold IsMagnitude; decide

theorem witness_VnrmCompletesOnNonzeroVectors :
    readV (loaded ⟨0x80000000, 0, 0⟩ zeroVector zeroVector 0) 1 ≠ zeroVector := by decide

/-- Row Q13: the largest magnitude, above 2^31. -/
theorem witness_NrmqComponentsAreExactAndFit :
    2 ^ 31 ≤ largest (normalOf zeroVector ⟨0, 0x80000000, 0x7FFFFFFF⟩ ⟨0, 0, 0xFFFFFFFF⟩) := by decide

theorem witness_NrmqSwapNegatesWithinOneUlp :
    let s := loaded ⟨0x00010000, 0x00020000, 0x00030000⟩ ⟨0x00040000, 0xFFFF0000, 0x00028000⟩
      ⟨0xFFFE0000, 0x00008000, 0x00070000⟩ 0
    DifferenceFits (readV s 1) (readV s 2) ∧ DifferenceFits (readV s 2) (readV s 3) ∧
      DifferenceFits (readV s 1) (readV s 3) ∧ DifferenceFits (readV s 3) (readV s 2) := by
  unfold DifferenceFits; decide

/-- Row Q17, with quick magnitude 0, and row Q21, with quick magnitude 1. -/
theorem witness_NrmlNormalizesTheQuickResult :
    IsMagnitude (ints (readV (issue 0x07012300 (loaded ⟨1, 1, 1⟩ ⟨2, 2, 2⟩ ⟨3, 3, 3⟩ 0)) 0)) 0 ∧
    IsMagnitude (ints (readV (issue 0x07012300 (loaded zeroVector ⟨0x100, 0, 0⟩ ⟨0, 0x100, 0⟩ 0)) 0)) 1 := by
  unfold IsMagnitude; decide

/-- The source's example is no degenerate triangle; rows Q20 and Q21 stand on either side of the boundary. -/
theorem witness_NrmlCompletesOnProperTriangles :
    (let s := loaded zeroVector ⟨0x00010000, 0, 0⟩ ⟨0, 0x00010000, 0⟩ 0
     ¬ Degenerate (readV s 1) (readV s 2) (readV s 3)) ∧
    Degenerate zeroVector ⟨0xFF, 0, 0⟩ ⟨0, 0xFF, 0⟩ ∧ ¬ Degenerate zeroVector ⟨0x100, 0, 0⟩ ⟨0, 0x100, 0⟩ := by
  unfold Degenerate; decide

/-- A zero register, a non-zero one, and NRMQ with a zero and a non-zero result. -/
theorem witness_DivideByZeroIsRaisedExactlyOnZero :
    readV (loaded zeroVector ⟨1, 0, 0⟩ zeroVector 0) 1 = zeroVector ∧
    readV (loaded zeroVector ⟨1, 0, 0⟩ zeroVector 0) 2 ≠ zeroVector ∧
    (∃ u, exec (.nrmq 0 1 1 1) (loaded zeroVector zeroVector zeroVector 0) = .next u ∧ readV u 0 = zeroVector) ∧
    ∃ u, exec (.nrmq 0 1 2 3) (loaded zeroVector ⟨0x100, 0, 0⟩ ⟨0, 0x100, 0⟩ 0) = .next u ∧ readV u 0 ≠ zeroVector :=
  ⟨by decide, by decide, ⟨_, rfl, by decide⟩, ⟨_, rfl, by decide⟩⟩

theorem witness_VsubThenVaddRestores : (3 : VReg) ≠ 2 := by decide

/-- A scalar register that holds 1.0, one that holds 0, one that holds -1.0. -/
theorem witness_VsclByOneZeroAndMinusOne :
    readS (loaded zeroVector zeroVector zeroVector 0x00010000) 2 = 0x00010000 ∧
    readS (loaded zeroVector zeroVector zeroVector 0x00000000) 2 = 0x00000000 ∧
    readS (loaded zeroVector zeroVector zeroVector 0xFFFF0000) 2 = 0xFFFF0000 := by decide

theorem witness_ShiftTableIsTheLeadingBit : (1 : BitVec 8) ≠ 0 ∧ (0xFF : BitVec 8) ≠ 0 := by decide

theorem witness_ShiftCountIsTheLeadingBit : (1 : Word) ≠ 0 ∧ (0xFFFFFFFF : Word) ≠ 0 := by decide

theorem witness_OverflowTestIsTheMagnitudeTest :
    (0x8000000080000000 : Wide) ≠ 0x8000000000000000 ∧ (0x7FFFFFFFFFFFFFFF : Wide) ≠ 0x8000000000000000 := by decide

end Sys2Proof.Tests
end

section
/-! The decoder on the words that FCMD can hold. -/

namespace Sys2Proof

/-- Decoding is the inverse of encoding on every command (30_encoding.md R83, R89). -/
@[simp] theorem decode_encode (i : Instr) : decode (encode i) = .ok i := by
  cases i <;> simp [decode, encode, instrFields, decodeFields]

/-- The value of FCMD after reset is no command: opcode 0 is unassigned (30_encoding.md R85). -/
@[simp] theorem decode_zero : decode 0 = .error .unassignedOpcode := by decide

end Sys2Proof
end

section
/-! STATUS, CTRL and FCMD: how they read through the register map, and everything an operation, a command and a step
can do to them (10_state.md R25 to R27). The invariants of this family follow from `step_control_cases`. -/

namespace Sys2Proof.Machine

open Sys2Proof.Safety

/-- The index of STATUS is the only one that names it. -/
theorem mapEntry_eq_status {idx : BitVec 8} : mapEntry idx = .status ↔ idx = 0x51 := by
  revert idx; decide

/-- The index of CTRL is the only one that names it. -/
theorem mapEntry_eq_ctrl {idx : BitVec 8} : mapEntry idx = .ctrl ↔ idx = 0x52 := by
  revert idx; decide

@[simp] theorem mapRead_status (s : State) : mapRead s 0x51 = statusWord s := by
  rw [mapRead, mapEntry_eq_status.mpr rfl]

@[simp] theorem mapRead_ctrl (s : State) : mapRead s 0x52 = ctrlWord s := by
  rw [mapRead, mapEntry_eq_ctrl.mpr rfl]

@[simp] theorem mapRead_fcmd (s : State) : mapRead s 0x53 = s.fcmd := by
  rw [mapRead, show mapEntry 0x53 = .fcmd by decide]

@[simp] theorem mapRead_id (s : State) : mapRead s 0x54 = idWord := by
  rw [mapRead, show mapEntry 0x54 = .id by decide]

/-- Two words of two bits, each over zeros, have a common one exactly in one of the two places. -/
theorem bitPairs_and_ne_zero (a₁ a₀ b₁ b₀ : Bool) :
    (BitVec.ofBool a₁ ++ BitVec.ofBool a₀).setWidth 32 &&& (BitVec.ofBool b₁ ++ BitVec.ofBool b₀).setWidth 32 ≠ 0#32 ↔
      ((a₀ && b₀) || (a₁ && b₁)) = true := by
  revert a₁ a₀ b₁ b₀; decide

/-- The interrupt output from the words of STATUS and CTRL (10_state.md R30). -/
theorem irq_iff_statusWord_and_ctrlWord (s : State) : irq s = true ↔ statusWord s &&& ctrlWord s ≠ 0 :=
  (bitPairs_and_ne_zero s.ill s.dz s.illie s.dzie).symm

/-- The ShiftTable entry by entry (40_numeric_primitives.md R112). -/
theorem tableEntry_eq_log2 (b : BitVec 8) : tableEntry b = if b = 0 then 0 else Nat.log2 b.toNat := by
  revert b; decide

theorem getLsbD_zero_iff (data : Word) : data.getLsbD 0 = true ↔ data.toNat % 2 = 1 := by
  simp [BitVec.getLsbD, Nat.testBit_eq_decide_div_mod_eq]

theorem getLsbD_one_iff (data : Word) : data.getLsbD 1 = true ↔ data.toNat / 2 % 2 = 1 := by
  simp [BitVec.getLsbD, Nat.testBit_eq_decide_div_mod_eq]

theorem controlSame_refl (s : State) : ControlSame s s := ⟨rfl, rfl, rfl, rfl, rfl⟩

theorem controlSame_writeV (s : State) (r : VReg) (v : FixedVector) : ControlSame s (writeV s r v) :=
  controlSame_refl s

theorem controlSame_writeS (s : State) (r : SReg) (w : Word) : ControlSame s (writeS s r w) := controlSame_refl s

/-- A write of the map outside CMD reaches STATUS and CTRL at their own indices only, and FCMD never (20_memory.md
R53). -/
theorem mapWrite_control_cases (s : State) (idx : BitVec 8) (data : Word) :
    ControlSame s (mapWrite s idx data) ∨ (idx = 0x51 ∧ mapWrite s idx data = acknowledge data s) ∨
      (idx = 0x52 ∧ mapWrite s idx data = writeCtrl data s) := by
  unfold mapWrite
  cases h : mapEntry idx with
  | vector r c => exact .inl (controlSame_writeV ..)
  | scalar r => exact .inl (controlSame_writeS ..)
  | status => exact .inr (.inl ⟨mapEntry_eq_status.mp h, rfl⟩)
  | ctrl => exact .inr (.inr ⟨mapEntry_eq_ctrl.mp h, rfl⟩)
  | cmd | fcmd | id | ignored => exact .inl (controlSame_refl s)

theorem controlSame_raiseFault {s u : State} (h : ControlSame s u) (c : FaultCause) (w : Word) :
    ControlSame (raiseFault c w s) (raiseFault c w u) := by
  obtain ⟨hz, hl, hze, hle, -⟩ := h
  cases c with
  | divideByZero => exact ⟨rfl, hl, hze, hle, rfl⟩
  | illegalCommand => exact ⟨hz, rfl, hze, hle, rfl⟩

/-- Normalizing in place leaves STATUS, CTRL and FCMD, or does to them what DivideByZero does, also when seen
from the state `s` before NRML's write of the quick result. -/
theorem normalizeInPlace_control_cases {s u : State} (hu : ControlSame s u) (w : Word) (d : VReg) :
    ControlSame s (normalizeInPlace w d u) ∨ ControlSame (raiseFault .divideByZero w s) (normalizeInPlace w d u) := by
  obtain ⟨-, h⟩ | ⟨-, h⟩ := normalizeInPlace_cases w d u <;> rw [h]
  · exact .inr (controlSame_raiseFault hu .divideByZero w)
  · exact .inl hu

/-- The commands that divide, VNRM and NRML: by `exec_control_cases` no other raises DivideByZero (60_exceptions.md
R170). -/
def IsDividing (i : Instr) : Prop := (∃ d, i = .vnrm d) ∨ ∃ d a b c, i = .nrml d a b c

/-- A command leaves STATUS, CTRL and FCMD, or is one that divides and does to them what DivideByZero does with its
own word (60_exceptions.md R170, R175). -/
theorem exec_control_cases {i : Instr} {s t : State} (h : exec i s = .next t) :
    ControlSame s t ∨ (IsDividing i ∧ ControlSame (raiseFault .divideByZero (encode i) s) t) := by
  obtain ⟨d, v, -, he⟩ | ⟨d, w, -, he⟩ | ⟨d, hi, he⟩ | ⟨d, a, b, c, -, he⟩ | ⟨d, a, b, c, hi, he⟩ := exec_cases i s <;>
    obtain rfl := Host.Outcome.next.inj (h.symm.trans he)
  · exact .inl (controlSame_writeV ..)
  · exact .inl (controlSame_writeS ..)
  · exact (normalizeInPlace_control_cases (controlSame_refl s) ..).imp_right fun hc => ⟨.inl ⟨d, hi⟩, hc⟩
  · exact .inl (controlSame_writeV ..)
  · exact (normalizeInPlace_control_cases (controlSame_writeV ..) ..).imp_right fun hc => ⟨.inr ⟨d, a, b, c, hi⟩, hc⟩

/-- Everything a step can do to STATUS, CTRL and FCMD: nothing, an acknowledge, a write of CTRL, one of the two faults
with the word that FCMD takes, or a reset (10_state.md R25 to R27; 60_exceptions.md R170). -/
theorem step_control_cases {s t : State} (h : step s = .next t) :
    ControlSame s t ∨
    (∃ data rest, s.pending = .memWrite 0x51 data :: rest ∧ ControlSame (acknowledge data s) t) ∨
    (∃ data rest, s.pending = .memWrite 0x52 data :: rest ∧ ControlSame (writeCtrl data s) t) ∨
    (∃ w rest i, s.pending = .memWrite 0x50 w :: rest ∧ decode w = .ok i ∧ IsDividing i ∧
      ControlSame (raiseFault .divideByZero (encode i) s) t) ∨
    (∃ w rest e, s.pending = .memWrite 0x50 w :: rest ∧ decode w = .error e ∧
      ControlSame (raiseFault .illegalCommand w s) t) ∨
    (∃ rest, s.pending = .reset :: rest ∧ ControlSame (takeReset s) t) := by
  obtain ⟨-, he⟩ | ⟨idx, rest, -, he⟩ | ⟨idx, data, rest, -, hp, he⟩ | ⟨w, rest, i, hp, hd, he⟩ |
    ⟨w, rest, e, hp, hd, he⟩ | ⟨rest, hp, he⟩ := step_cases s <;> rw [h] at he
  · cases he; exact .inl (controlSame_refl s)
  · cases he; exact .inl (controlSame_refl s)
  · cases he
    obtain hc | ⟨rfl, hw⟩ | ⟨rfl, hw⟩ := mapWrite_control_cases { s with pending := rest, reply := none } idx data
    · exact .inl hc
    · exact .inr (.inl ⟨data, rest, hp, hw ▸ controlSame_refl (acknowledge data s)⟩)
    · exact .inr (.inr (.inl ⟨data, rest, hp, hw ▸ controlSame_refl (writeCtrl data s)⟩))
  · obtain hc | ⟨hi, hc⟩ := exec_control_cases he.symm
    · exact .inl hc
    · exact .inr (.inr (.inr (.inl ⟨w, rest, i, hp, hd, hi, hc⟩)))
  · cases he
    exact .inr (.inr (.inr (.inr (.inl ⟨w, rest, e, hp, hd, controlSame_refl (raiseFault .illegalCommand w s)⟩))))
  · cases he
    exact .inr (.inr (.inr (.inr (.inr ⟨rest, hp, controlSame_refl (takeReset s)⟩))))

end Sys2Proof.Machine
end

section
/-! The invariant on FCMD (10_state.md R27): what brings it about, and that every step keeps it. -/

namespace Sys2Proof.Machine

open Sys2Proof.Safety

/-- The invariant speaks of FCMD alone. -/
theorem fcmdCanHaveFaulted_congr {s t : State} (h : t.fcmd = s.fcmd) : FcmdCanHaveFaulted t ↔ FcmdCanHaveFaulted s := by
  rw [FcmdCanHaveFaulted, FcmdCanHaveFaulted, h]

theorem fcmdCanHaveFaulted_of_error {s : State} {w : Word} {e : DecodeError} (hd : decode w = .error e)
    (h : s.fcmd = w) : FcmdCanHaveFaulted s := by
  rw [FcmdCanHaveFaulted, h, hd]; trivial

theorem fcmdCanHaveFaulted_of_isDividing {s : State} {i : Instr} (hi : IsDividing i) (h : s.fcmd = encode i) :
    FcmdCanHaveFaulted s := by
  rw [FcmdCanHaveFaulted, h, decode_encode]
  obtain ⟨d, rfl⟩ | ⟨d, a, b, c, rfl⟩ := hi <;> trivial

/-- Settles O17: by the cases of what a step can do to FCMD, which takes only an undecodable word, the encoding of a
command that divides, or the reset value. -/
theorem fcmdKeepsAFaultingWord : Obligations.FcmdKeepsAFaultingWord := by
  intro s t hs h
  obtain ⟨-, -, -, -, hf⟩ | ⟨data, rest, -, -, -, -, -, hf⟩ | ⟨data, rest, -, -, -, -, -, hf⟩ |
    ⟨w, rest, i, -, -, hi, -, -, -, -, hf⟩ | ⟨w, rest, e, -, hd, -, -, -, -, hf⟩ | ⟨rest, -, -, -, -, -, hf⟩ :=
    step_control_cases h
  · exact (fcmdCanHaveFaulted_congr hf).mpr hs
  · exact (fcmdCanHaveFaulted_congr hf).mpr hs
  · exact (fcmdCanHaveFaulted_congr hf).mpr hs
  · exact fcmdCanHaveFaulted_of_isDividing hi hf
  · exact fcmdCanHaveFaulted_of_error hd hf
  · exact fcmdCanHaveFaulted_of_error decode_zero hf

/-- Settles O18: FCMD is 0 after reset, which decodes to no command. -/
theorem resetFcmdCanHaveFaulted : Obligations.ResetFcmdCanHaveFaulted :=
  fcmdCanHaveFaulted_of_error decode_zero rfl

end Sys2Proof.Machine
end

section
/-! The fault flags, the interrupt output and the reset state (10_state.md R25, R30, R35). -/

namespace Sys2Proof.Machine

open Sys2Proof.Safety

/-- A flag that an acknowledge may clear stays set unless its bit of the word written is one. -/
theorem flag_kept_or_bit {f b : Bool} (hf : f = true) : (f && !b) = true ∨ b = true := by
  cases b <;> simp [hf]

/-- Settles O15, by the cases of what a step can do to STATUS: a fault only sets a flag, and an acknowledge clears the
flags that its word selects. -/
theorem faultFlagsAreSticky : Obligations.FaultFlagsAreSticky := by
  intro s t h
  obtain ⟨hz, hl, -⟩ | ⟨data, rest, hp, hz, hl, -⟩ | ⟨data, rest, -, hz, hl, -⟩ | ⟨w, rest, i, -, -, -, hz, hl, -⟩ |
    ⟨w, rest, e, -, -, hz, hl, -⟩ | ⟨rest, hp, -⟩ := step_control_cases h
  · exact ⟨fun hs => .inl (hz.trans hs), fun hs => .inl (hl.trans hs)⟩
  · rw [hz, hl, acknowledge_dz, acknowledge_ill]
    exact ⟨fun hs => (flag_kept_or_bit hs).imp_right fun hb => .inl ⟨data, rest, hp, (getLsbD_zero_iff data).mp hb⟩,
      fun hs => (flag_kept_or_bit hs).imp_right fun hb => .inl ⟨data, rest, hp, (getLsbD_one_iff data).mp hb⟩⟩
  · exact ⟨fun hs => .inl (hz.trans hs), fun hs => .inl (hl.trans hs)⟩
  · exact ⟨fun _ => .inl hz, fun hs => .inl (hl.trans hs)⟩
  · exact ⟨fun hs => .inl (hz.trans hs), fun _ => .inl hl⟩
  · exact ⟨fun _ => .inr (.inr ⟨rest, hp⟩), fun _ => .inr (.inr ⟨rest, hp⟩)⟩

/-- Settles O19: the map reads STATUS and CTRL as their words, whose common bits are the terms of irq. -/
theorem irqIsStatusAndControl : Obligations.IrqIsStatusAndControl := by
  intro s
  rw [mapRead_status, mapRead_ctrl]
  exact irq_iff_statusWord_and_ctrlWord s

/-- Settles O13: the reset state field by field, and the ShiftTable entry by entry. -/
theorem resetStateIsAsTabulated : Obligations.ResetStateIsAsTabulated :=
  ⟨rfl, rfl, rfl, rfl, rfl, rfl, mapRead_status _, mapRead_ctrl _, mapRead_fcmd _, mapRead_id _, tableEntry_eq_log2⟩

end Sys2Proof.Machine
end

section
/-! The register map under the port's transactions: what each index names, what a read returns and a write does there,
and that neither depends on what stands in the port (20_memory.md R50 to R53, R61). -/

namespace Sys2Proof.Machine

open Sys2Proof.Safety

/-- Everything the map names stands at its own index (20_memory.md R51). -/
@[simp] theorem mapEntry_entryIndex (e : MapEntry) : mapEntry (BitVec.ofNat 8 (entryIndex e)) = e := by
  cases e with
  | vector r c =>
    obtain ⟨hx, hy, hz⟩ := mapEntry_vector r
    cases c with
    | x => exact hx
    | y => exact hy
    | z => exact hz
  | scalar r => exact mapEntry_scalar r
  | cmd | status | ctrl | fcmd | id | ignored => decide

theorem mapEntry_of_toNat {idx : BitVec 8} {e : MapEntry} (h : idx.toNat = entryIndex e) : mapEntry idx = e := by
  rw [← mapEntry_entryIndex e, ← h, BitVec.ofNat_toNat, BitVec.setWidth_eq]

/-- No two indices name the same word, but for those that name nothing. -/
theorem eq_of_mapEntry_eq {idx other : BitVec 8} (hi : mapEntry idx ≠ .ignored) (h : mapEntry other = mapEntry idx) :
    other = idx := by
  have hidx := (toNat_eq_entryIndex idx).resolve_left hi
  have hother := (toNat_eq_entryIndex other).resolve_left (h ▸ hi)
  exact BitVec.eq_of_toNat_eq (by rw [hother, hidx, h])

/-- The indices of the component and scalar ranges, without the pads, name data words (20_memory.md R51). -/
theorem mapEntry_data_cases {idx : BitVec 8}
    (h : (idx.toNat < 0x40 ∧ idx.toNat % 4 ≠ 3) ∨ (0x40 ≤ idx.toNat ∧ idx.toNat < 0x50)) :
    (∃ r c, mapEntry idx = .vector r c) ∨ ∃ r, mapEntry idx = .scalar r := by
  have hn : mapEntry idx ≠ .ignored := fun hi => by have := (mapEntry_eq_ignored idx).mp hi; omega
  have hidx := (toNat_eq_entryIndex idx).resolve_left hn
  cases he : mapEntry idx with
  | vector r c => exact .inl ⟨r, c, rfl⟩
  | scalar r => exact .inr ⟨r, rfl⟩
  | ignored => exact absurd he hn
  | cmd | status | ctrl | fcmd | id => rw [he, entryIndex] at hidx; omega

/-- A STATUS or CTRL word as a number: its two bits over zeros (20_memory.md R52). -/
theorem toNat_bitPair (hi lo : Bool) :
    ((BitVec.ofBool hi ++ BitVec.ofBool lo).setWidth 32).toNat = 2 * hi.toNat + lo.toNat := by
  revert hi lo; decide

theorem mapRead_of_vector {idx : BitVec 8} {r : VReg} {c : Component} (h : mapEntry idx = .vector r c) (s : State) :
    mapRead s idx = component (readV s r) c := by
  rw [mapRead, h]

theorem mapRead_of_scalar {idx : BitVec 8} {r : SReg} (h : mapEntry idx = .scalar r) (s : State) :
    mapRead s idx = readS s r := by
  rw [mapRead, h]

theorem mapRead_of_ignored {idx : BitVec 8} (h : mapEntry idx = .ignored) (s : State) : mapRead s idx = 0 := by
  rw [mapRead, h]

@[simp] theorem mapRead_cmd (s : State) : mapRead s 0x50 = 0 := by
  rw [mapRead, mapEntry_cmd]

/-- A write of a vector register is seen at that register's indices only. -/
theorem mapRead_writeV_other {r : VReg} {other : BitVec 8} (h : ∀ k, mapEntry other ≠ .vector r k) (s : State)
    (v : FixedVector) : mapRead (writeV s r v) other = mapRead s other := by
  rw [mapRead, mapRead]
  cases he : mapEntry other with
  | vector q k => exact congrArg (component · k) (readV_writeV_other s v fun hq => h k (hq ▸ he))
  | scalar | cmd | status | ctrl | fcmd | id | ignored => rfl

/-- A write of a scalar register is seen at that register's index only. -/
theorem mapRead_writeS_other {r : SReg} {other : BitVec 8} (h : mapEntry other ≠ .scalar r) (s : State) (data : Word) :
    mapRead (writeS s r data) other = mapRead s other := by
  rw [mapRead, mapRead]
  cases he : mapEntry other with
  | scalar q => exact readS_writeS_other s data fun hq => h (hq ▸ he)
  | vector | cmd | status | ctrl | fcmd | id | ignored => rfl

/-- A write of one component changes the word at its index alone. -/
theorem mapRead_writeV_withComponent {idx : BitVec 8} {r : VReg} {c : Component} (h : mapEntry idx = .vector r c)
    (s : State) (data : Word) (other : BitVec 8) :
    mapRead (writeV s r (withComponent (readV s r) c data)) other = if other = idx then data else mapRead s other := by
  split
  case isTrue ho => subst ho; simp [mapRead_of_vector h]
  case isFalse ho =>
    by_cases hv : ∃ k, mapEntry other = .vector r k
    · obtain ⟨k, he⟩ := hv
      have hk : k ≠ c := fun hk => ho (eq_of_mapEntry_eq (by simp [h]) (by rw [he, h, hk]))
      simp [mapRead_of_vector he, hk]
    · exact mapRead_writeV_other (not_exists.mp hv) s _

/-- A write of a scalar register changes the word at its index alone. -/
theorem mapRead_writeS {idx : BitVec 8} {r : SReg} (h : mapEntry idx = .scalar r) (s : State) (data : Word)
    (other : BitVec 8) : mapRead (writeS s r data) other = if other = idx then data else mapRead s other := by
  split
  case isTrue ho => subst ho; simp [mapRead_of_scalar h]
  case isFalse ho =>
    exact mapRead_writeS_other (fun he => ho (eq_of_mapEntry_eq (by simp [h]) (he.trans h.symm))) s data

theorem memWrite_of_vector {idx : BitVec 8} {r : VReg} {c : Component} (h : mapEntry idx = .vector r c) (data : Word)
    (s : State) : memWrite idx data s = .next (writeV s r (withComponent (readV s r) c data)) := by
  rw [memWrite, mapWrite, h]

theorem memWrite_of_scalar {idx : BitVec 8} {r : SReg} (h : mapEntry idx = .scalar r) (data : Word) (s : State) :
    memWrite idx data s = .next (writeS s r data) := by
  rw [memWrite, mapWrite, h]

theorem memWrite_status (data : Word) (s : State) : memWrite 0x51 data s = .next (acknowledge data s) := by
  rw [memWrite, mapWrite, mapEntry_eq_status.mpr rfl]

theorem memWrite_ctrl (data : Word) (s : State) : memWrite 0x52 data s = .next (writeCtrl data s) := by
  rw [memWrite, mapWrite, mapEntry_eq_ctrl.mpr rfl]

/-- FCMD and ID are read-only, and pad and reserved indices hold nothing (20_memory.md R53). -/
theorem memWrite_readOnly {idx : BitVec 8}
    (h : mapEntry idx = .fcmd ∨ mapEntry idx = .id ∨ mapEntry idx = .ignored) (data : Word) (s : State) :
    memWrite idx data s = .next s := by
  rw [memWrite, mapWrite]
  obtain h | h | h := h <;> rw [h]

theorem writeCmd_of_ok {w : Word} {i : Instr} (h : decode w = .ok i) (s : State) : writeCmd w s = exec i s := by
  rw [writeCmd, h]

theorem writeCmd_of_error {w : Word} {e : DecodeError} (h : decode w = .error e) (s : State) :
    writeCmd w s = .next (raiseFault .illegalCommand w s) := by
  rw [writeCmd, h]

/-- An acknowledge by the two low bits of the number written (20_memory.md R53). -/
theorem acknowledge_eq (data : Word) (s : State) : acknowledge data s = { s with
    dz := if data.toNat % 2 = 1 then false else s.dz, ill := if data.toNat / 2 % 2 = 1 then false else s.ill } := by
  simp only [acknowledge, clearFlags, ← getLsbD_zero_iff, ← getLsbD_one_iff]
  cases data.getLsbD 0 <;> cases data.getLsbD 1 <;> simp

/-- A write of CTRL by the two low bits of the number written (20_memory.md R53). -/
theorem writeCtrl_eq (data : Word) (s : State) : writeCtrl data s = { s with
    dzie := decide (data.toNat % 2 = 1), illie := decide (data.toNat / 2 % 2 = 1) } := by
  simp [writeCtrl, ← getLsbD_zero_iff, ← getLsbD_one_iff]

end Sys2Proof.Machine
end

section
/-! The port is only an input and an output: what is done to the block does not depend on the events still to come or
on the word returned, and leaves both (20_memory.md R50). -/

namespace Sys2Proof.Machine

open Sys2Proof.Safety

@[simp] theorem mapRead_port (s : State) (p : List HostEvent) (v : Option Word) (idx : BitVec 8) :
    mapRead { s with pending := p, reply := v } idx = mapRead s idx := rfl

@[simp] theorem readV_port (s : State) (p : List HostEvent) (v : Option Word) (r : VReg) :
    readV { s with pending := p, reply := v } r = readV s r := rfl

theorem sameBlock_port (s : State) (p : List HostEvent) (v : Option Word) :
    SameBlock s { s with pending := p, reply := v } := ⟨rfl, rfl, controlSame_refl s⟩

theorem mapWrite_port (idx : BitVec 8) (data : Word) (s : State) (p : List HostEvent) (v : Option Word) :
    mapWrite { s with pending := p, reply := v } idx data =
      { mapWrite s idx data with pending := p, reply := v } := by
  unfold mapWrite
  cases mapEntry idx <;> rfl

theorem normalizeInPlace_port (w : Word) (d : VReg) (s : State) (p : List HostEvent) (v : Option Word) :
    normalizeInPlace w d { s with pending := p, reply := v } =
      { normalizeInPlace w d s with pending := p, reply := v } := by
  rw [normalizeInPlace, normalizeInPlace, readV_port]
  split <;> rfl

/-- A command computes the same block whatever stands in the port, and leaves the port as it is. -/
theorem exec_port (i : Instr) (s : State) (p : List HostEvent) (v : Option Word) :
    ∃ u, exec i s = .next u ∧
      exec i { s with pending := p, reply := v } = .next { u with pending := p, reply := v } := by
  cases i with
  | vnrm d => exact ⟨_, rfl, congrArg _ (normalizeInPlace_port _ d s p v)⟩
  | nrml d a b c => exact ⟨_, rfl, congrArg _ (normalizeInPlace_port _ d (writeV s d _) p v)⟩
  | vadd | vsub | vscl | vdot | vmag | nrmq => exact ⟨_, rfl, rfl⟩

/-- A write transaction does the same to the block whatever stands in the port, and leaves the port as it is. -/
theorem memWrite_port (idx : BitVec 8) (data : Word) (s : State) (p : List HostEvent) (v : Option Word) :
    ∃ u, memWrite idx data s = .next u ∧
      memWrite idx data { s with pending := p, reply := v } = .next { u with pending := p, reply := v } := by
  by_cases hi : idx = 0x50
  · subst hi
    rw [memWrite_cmd, memWrite_cmd]
    cases hd : decode data with
    | ok i => rw [writeCmd_of_ok hd, writeCmd_of_ok hd]; exact exec_port i s p v
    | error e => exact ⟨_, writeCmd_of_error hd s, writeCmd_of_error hd _⟩
  · exact ⟨_, memWrite_of_ne hi data s, by rw [memWrite_of_ne hi, mapWrite_port]⟩

/-- A step that takes a write does to the block what the write does, takes the event off and returns nothing. -/
theorem step_memWrite {s : State} {idx : BitVec 8} {data : Word} {rest : List HostEvent}
    (hp : s.pending = .memWrite idx data :: rest) :
    ∃ u, memWrite idx data s = .next u ∧ step s = .next { u with pending := rest, reply := none } := by
  rw [step_of_pending hp]
  exact memWrite_port idx data s rest none

/-- A step that takes a read leaves the block, takes the event off and returns the map's word (20_memory.md R52). -/
theorem step_memRead {s : State} {idx : BitVec 8} {rest : List HostEvent} (hp : s.pending = .memRead idx :: rest) :
    step s = .next { s with pending := rest, reply := some (mapRead s idx) } := by
  rw [step_of_pending hp]; rfl

/-- A step that takes a write of a decodable word to CMD runs its command (20_memory.md R61). -/
theorem step_memWrite_cmd {s : State} {w : Word} {rest : List HostEvent} {i : Instr}
    (hp : s.pending = .memWrite 0x50 w :: rest) (hd : decode w = .ok i) :
    step s = exec i { s with pending := rest, reply := none } := by
  rw [step_of_pending hp, takeEvent, memWrite_cmd, writeCmd_of_ok hd]

/-- `withFetchWord` puts a whole 32-bit word into the port as a write to CMD (log entry 6). -/
theorem withFetchWord_pending (s : State) (w : Word) :
    (s.withFetchWord 32 w.toNat).pending = .memWrite 0x50 w :: s.pending := by
  rw [State.withFetchWord, deliverCommand_pending, Nat.mod_eq_of_lt w.isLt, BitVec.ofNat_toNat, BitVec.setWidth_eq]

end Sys2Proof.Machine
end

section
/-! The statements about the host port and the register map (20_memory.md). -/

namespace Sys2Proof.Machine

open Sys2Proof.Safety

/-- Settles O10: the word returned is `mapRead`'s, index by index of the map. -/
theorem readReturnsTheMapValue : Obligations.ReadReturnsTheMapValue := by
  intro s idx rest hp
  refine ⟨mapRead s idx, _, step_memRead hp, rfl, sameBlock_port s _ _, ?x, ?y, ?z, ?scalar, ?status, ?ctrl, ?fcmd, ?id,
    ?zero⟩
  case x => exact fun r h => mapRead_of_vector (mapEntry_of_toNat (e := .vector r .x) h) s
  case y => exact fun r h => mapRead_of_vector (mapEntry_of_toNat (e := .vector r .y) h) s
  case z => exact fun r h => mapRead_of_vector (mapEntry_of_toNat (e := .vector r .z) h) s
  case scalar => exact fun r h => mapRead_of_scalar (mapEntry_of_toNat (e := .scalar r) h) s
  case status => rintro rfl; rw [mapRead_status]; exact toNat_bitPair s.ill s.dz
  case ctrl => rintro rfl; rw [mapRead_ctrl]; exact toNat_bitPair s.illie s.dzie
  case fcmd => rintro rfl; exact mapRead_fcmd s
  case id => rintro rfl; exact mapRead_id s
  case zero =>
    rintro (rfl | h)
    · exact mapRead_cmd s
    · exact mapRead_of_ignored ((mapEntry_eq_ignored idx).mpr h) s

/-- Settles O11: the step leaves the block that the write alone gives, and the write is known index by index. -/
theorem writeUpdatesTheMap : Obligations.WriteUpdatesTheMap := by
  intro s idx data rest hp
  obtain ⟨u, hu, hstep⟩ := step_memWrite hp
  have block {v : State} (hv : memWrite idx data s = .next v) :
      SameBlock v { u with pending := rest, reply := none } := by
    obtain rfl := Host.Outcome.next.inj (hu.symm.trans hv)
    exact sameBlock_port u rest none
  refine ⟨_, hstep, ?x, ?y, ?z, ?scalar, ?command, ?illegal, ?status, ?ctrl, ?readOnly⟩
  case x => exact fun r h => block (memWrite_of_vector (mapEntry_of_toNat (e := .vector r .x) h) data s)
  case y => exact fun r h => block (memWrite_of_vector (mapEntry_of_toNat (e := .vector r .y) h) data s)
  case z => exact fun r h => block (memWrite_of_vector (mapEntry_of_toNat (e := .vector r .z) h) data s)
  case scalar => exact fun r h => block (memWrite_of_scalar (mapEntry_of_toNat (e := .scalar r) h) data s)
  case command =>
    rintro rfl i hd
    exact ⟨u, (writeCmd_of_ok hd s).symm.trans hu, block hu⟩
  case illegal => rintro rfl e hd; exact block (writeCmd_of_error hd s)
  case status => rintro rfl; rw [← acknowledge_eq]; exact block (memWrite_status data s)
  case ctrl => rintro rfl; rw [← writeCtrl_eq]; exact block (memWrite_ctrl data s)
  case readOnly =>
    intro h
    refine block (memWrite_readOnly ?_ data s)
    obtain rfl | rfl | h := h
    · exact .inl (mapEntry_of_toNat (e := .fcmd) rfl)
    · exact .inr (.inl (mapEntry_of_toNat (e := .id) rfl))
    · exact .inr (.inr ((mapEntry_eq_ignored idx).mpr h))

/-- Settles O12: the index names one component or one scalar register, whose write changes its own word alone. -/
theorem dataWordReadsAsWritten : Obligations.DataWordReadsAsWritten := by
  intro s t idx data rest hp ht hidx
  obtain ⟨u, hu, hstep⟩ := step_memWrite hp
  obtain rfl := Host.Outcome.next.inj (hstep.symm.trans ht)
  have reads (other : BitVec 8) : mapRead u other = if other = idx then data else mapRead s other := by
    obtain ⟨r, c, he⟩ | ⟨r, he⟩ := mapEntry_data_cases hidx
    · obtain rfl := Host.Outcome.next.inj ((memWrite_of_vector he data s).symm.trans hu)
      exact mapRead_writeV_withComponent he s data other
    · obtain rfl := Host.Outcome.next.inj ((memWrite_of_scalar he data s).symm.trans hu)
      exact mapRead_writeS he s data other
  exact ⟨by simp [reads], fun other ho => by simp [reads, ho]⟩

/-- Settles O6: serving a write to CMD is running its command, and `withFetchWord` brings the command's own word. -/
theorem stepRunsTheDecodedCommand : Obligations.StepRunsTheDecodedCommand :=
  ⟨fun _ _ _ _ hp hd => step_memWrite_cmd hp hd,
    fun s i => step_memWrite_cmd (withFetchWord_pending s (encode i)) (decode_encode i)⟩

/-- Settles O9, by the kind of event that is taken off. -/
theorem stepTakesOneEventInOrder : Obligations.StepTakesOneEventInOrder := by
  refine ⟨fun s t ev rest hp ht => ?_, fun s hp => by rw [step, serveNext, hp]⟩
  cases ev with
  | memRead idx =>
    obtain rfl := Host.Outcome.next.inj ((step_memRead hp).symm.trans ht)
    rfl
  | memWrite idx data =>
    obtain ⟨u, -, hstep⟩ := step_memWrite hp
    obtain rfl := Host.Outcome.next.inj (hstep.symm.trans ht)
    rfl
  | reset =>
    obtain rfl := Host.Outcome.next.inj ((step_of_pending hp).symm.trans ht)
    rfl

end Sys2Proof.Machine
end

section
/-! The fields of a word: as the numbers of its bits, as register numbers, and under a mask (30_encoding.md R80, R82). -/

namespace Sys2Proof

theorem splitFields_op_toNat (w : Word) : (splitFields w).op.toNat = w.toNat / 2 ^ 24 :=
  (field_toNat w 24 8).trans (Nat.mod_eq_of_lt (by have := w.isLt; omega))

theorem splitFields_d_toNat (w : Word) : (splitFields w).d.toNat = w.toNat / 2 ^ 20 % 16 := field_toNat w 20 4

theorem splitFields_a_toNat (w : Word) : (splitFields w).a.toNat = w.toNat / 2 ^ 16 % 16 := field_toNat w 16 4

theorem splitFields_b_toNat (w : Word) : (splitFields w).b.toNat = w.toNat / 2 ^ 12 % 16 := field_toNat w 12 4

theorem splitFields_c_toNat (w : Word) : (splitFields w).c.toNat = w.toNat / 2 ^ 8 % 16 := field_toNat w 8 4

theorem splitFields_z_toNat (w : Word) : (splitFields w).z.toNat = w.toNat % 2 ^ 8 := by
  rw [splitFields, field_toNat, pow_zero, Nat.div_one]

theorem regField_eq_iff {r : Fin 16} {x : BitVec 4} : regField r = x ↔ r.val = x.toNat := by
  rw [← toNat_regField r, BitVec.toNat_inj]

theorem splitFields_inj {v w : Word} : splitFields v = splitFields w ↔ v = w :=
  (Function.LeftInverse.injective joinFields_splitFields).eq_iff

/-- A mask acts on each field by its own bits. -/
theorem splitFields_and (v w : Word) : splitFields (v &&& w) =
    ⟨(splitFields v).op &&& (splitFields w).op, (splitFields v).d &&& (splitFields w).d,
      (splitFields v).a &&& (splitFields w).a, (splitFields v).b &&& (splitFields w).b,
      (splitFields v).c &&& (splitFields w).c, (splitFields v).z &&& (splitFields w).z⟩ := by
  simp only [splitFields, BitVec.extractLsb'_and]

/-- A masked word is an opcode alone exactly when the word has that opcode, `Z` zero, and zero wherever the mask selects
bits of `A`, `B` and `C`. -/
theorem and_eq_opcode_iff {mask v : Word} {op : BitVec 8} {ma mb mc : BitVec 4}
    (hmask : splitFields mask = ⟨BitVec.allOnes 8, 0#4, ma, mb, mc, BitVec.allOnes 8⟩)
    (hv : splitFields v = ⟨op, 0#4, 0#4, 0#4, 0#4, 0#8⟩) (w : Word) :
    w &&& mask = v ↔ (splitFields w).op = op ∧ (splitFields w).a &&& ma = 0#4 ∧ (splitFields w).b &&& mb = 0#4 ∧
      (splitFields w).c &&& mc = 0#4 ∧ (splitFields w).z = 0#8 := by
  rw [← splitFields_inj, splitFields_and, hmask, hv]
  simp only [Fields.mk.injEq, BitVec.and_allOnes, BitVec.and_zero, true_and]

end Sys2Proof
end

section
/-! The check of WellFormed: it accepts the fields of the commands and no others (30_encoding.md R81, R83, R84). -/

namespace Sys2Proof

/-- The rows of 30_encoding.md R83: the assigned opcodes, each with its format. -/
theorem opcodeFormat_eq_some {op : BitVec 8} {fmt : Format} (h : opcodeFormat op = some fmt) :
    (op = 1 ∧ fmt = .vvv) ∨ (op = 2 ∧ fmt = .vvv) ∨ (op = 3 ∧ fmt = .vvs) ∨ (op = 4 ∧ fmt = .svv) ∨
    (op = 5 ∧ fmt = .sv) ∨ (op = 6 ∧ fmt = .v) ∨ (op = 7 ∧ fmt = .vvvv) ∨ (op = 8 ∧ fmt = .vvvv) := by
  rw [opcodeFormat] at h
  split at h <;> simp_all [← BitVec.toNat_inj]

theorem opcodeFormat_eq_none {op : BitVec 8} : opcodeFormat op = none ↔ op.toNat = 0 ∨ 9 ≤ op.toNat := by
  revert op; decide

theorem wellFormed_of_format {f : Fields} {fmt : Format} (h : opcodeFormat f.op = some fmt) :
    f.wellFormed = (f.z == 0 && fmt.unusedZero f) := by
  rw [Fields.wellFormed, h, Option.any_some]

theorem wellFormed_of_unassigned {f : Fields} (h : opcodeFormat f.op = none) : f.wellFormed = false := by
  rw [Fields.wellFormed, h, Option.any_none, Bool.and_false]

theorem wellFormed_instrFields (i : Instr) : (instrFields i).wellFormed = true := by
  rw [← splitFields_joinFields (instrFields i)]
  exact match i with
  | .vadd d a b => Laws.FieldsWellFormed.vadd d a b
  | .vsub d a b => Laws.FieldsWellFormed.vsub d a b
  | .vscl d a b => Laws.FieldsWellFormed.vscl d a b
  | .vdot d a b => Laws.FieldsWellFormed.vdot d a b
  | .vmag d a => Laws.FieldsWellFormed.vmag d a
  | .vnrm d => Laws.FieldsWellFormed.vnrm d
  | .nrmq d a b c => Laws.FieldsWellFormed.nrmq d a b c
  | .nrml d a b c => Laws.FieldsWellFormed.nrml d a b c

theorem exists_instrFields_of_wellFormed {f : Fields} (h : f.wellFormed = true) : ∃ i, instrFields i = f := by
  cases hop : opcodeFormat f.op with
  | none => simp [wellFormed_of_unassigned hop] at h
  | some fmt =>
    obtain ⟨op, d, a, b, c, z⟩ := f
    simp only [wellFormed_of_format hop, Bool.and_eq_true, beq_iff_eq] at h
    obtain ⟨rfl, hunused⟩ := h
    obtain ⟨rfl, rfl⟩ | ⟨rfl, rfl⟩ | ⟨rfl, rfl⟩ | ⟨rfl, rfl⟩ | ⟨rfl, rfl⟩ | ⟨rfl, rfl⟩ | ⟨rfl, rfl⟩ | ⟨rfl, rfl⟩ :=
      opcodeFormat_eq_some hop
    · exact ⟨.vadd (fieldReg d) (fieldReg a) (fieldReg b), by simp_all [instrFields, Format.unusedZero]⟩
    · exact ⟨.vsub (fieldReg d) (fieldReg a) (fieldReg b), by simp_all [instrFields, Format.unusedZero]⟩
    · exact ⟨.vscl (fieldReg d) (fieldReg a) (fieldReg b), by simp_all [instrFields, Format.unusedZero]⟩
    · exact ⟨.vdot (fieldReg d) (fieldReg a) (fieldReg b), by simp_all [instrFields, Format.unusedZero]⟩
    · exact ⟨.vmag (fieldReg d) (fieldReg a), by simp_all [instrFields, Format.unusedZero]⟩
    · exact ⟨.vnrm (fieldReg d), by simp_all [instrFields, Format.unusedZero]⟩
    · exact ⟨.nrmq (fieldReg d) (fieldReg a) (fieldReg b) (fieldReg c), by simp [instrFields]⟩
    · exact ⟨.nrml (fieldReg d) (fieldReg a) (fieldReg b) (fieldReg c), by simp [instrFields]⟩

/-- `IllegalWord` counts in numbers what the check of WellFormed reads off the fields. -/
theorem illegalWord_iff_wellFormed (w : Word) : Safety.IllegalWord w ↔ (splitFields w).wellFormed = false := by
  rw [Safety.IllegalWord, ← splitFields_op_toNat, ← splitFields_z_toNat, ← splitFields_a_toNat, ← splitFields_b_toNat,
    ← splitFields_c_toNat]
  generalize splitFields w = f
  cases hop : opcodeFormat f.op with
  | none => exact iff_of_true ((opcodeFormat_eq_none.mp hop).elim .inl (.inr ∘ .inl)) (wellFormed_of_unassigned hop)
  | some fmt =>
    rw [wellFormed_of_format hop]
    obtain ⟨h, rfl⟩ | ⟨h, rfl⟩ | ⟨h, rfl⟩ | ⟨h, rfl⟩ | ⟨h, rfl⟩ | ⟨h, rfl⟩ | ⟨h, rfl⟩ | ⟨h, rfl⟩ :=
      opcodeFormat_eq_some hop
    all_goals simp [h, Format.unusedZero, ← BitVec.toNat_inj, imp_iff_not_or, or_assoc]

end Sys2Proof
end

section
/-! The decoder: it accepts what the check of WellFormed accepts, and what it accepts is one command's own encoding
(30_encoding.md R83, R84, R89). -/

namespace Sys2Proof

theorem decodeFields_instrFields (i : Instr) : decodeFields (instrFields i) = .ok i := by
  simpa [decode, encode] using decode_encode i

theorem wellFormed_of_decodeFields {f : Fields} {i : Instr} (h : decodeFields f = .ok i) : f.wellFormed = true := by
  rw [decodeFields] at h
  split at h
  case isTrue => cases h
  case isFalse hz => split at h <;> simp_all [Fields.wellFormed, opcodeFormat, Format.unusedZero, ite_eq_iff]

/-- A word decodes to a command exactly when its fields are that command's. -/
theorem decode_eq_ok_iff_fields {w : Word} {i : Instr} : decode w = .ok i ↔ instrFields i = splitFields w := by
  constructor
  · intro h
    obtain ⟨j, hj⟩ := exists_instrFields_of_wellFormed (wellFormed_of_decodeFields h)
    rw [decode, ← hj, decodeFields_instrFields] at h
    rw [← Except.ok.inj h, hj]
  · intro h
    rw [decode, ← h, decodeFields_instrFields]

theorem decode_eq_error_iff {w : Word} : (∃ e, decode w = .error e) ↔ (splitFields w).wellFormed = false := by
  cases hd : decode w with
  | ok i => simp [wellFormed_of_decodeFields hd]
  | error e =>
    refine iff_of_true ⟨e, rfl⟩ (Bool.eq_false_iff.mpr fun hf => ?_)
    obtain ⟨i, hi⟩ := exists_instrFields_of_wellFormed hf
    simp [decode_eq_ok_iff_fields.mpr hi] at hd

end Sys2Proof
end

section
/-! The mask rows of 30_encoding.md R83: one lemma for any row, then one for each set of register fields that a format
uses (R81). -/

namespace Sys2Proof

/-- The field of a register operand, zero when the format has no such operand (30_encoding.md R84). -/
def operandField (r : Option (Fin 16)) : BitVec 4 := r.elim 0#4 regField

/-- The bits of that field which a row of 30_encoding.md R83 masks: all when it must be zero, none when it holds a
register. -/
def operandMask (r : Option (Fin 16)) : BitVec 4 := r.elim (BitVec.allOnes 4) fun _ => 0#4

theorem operandField_eq_iff {r : Option (Fin 16)} {x : BitVec 4} :
    operandField r = x ↔ x &&& operandMask r = 0#4 ∧ ∀ n ∈ r, n.val = x.toNat := by
  cases r with
  | none =>
    rw [operandField, operandMask, Option.elim_none, Option.elim_none, BitVec.and_allOnes]
    simpa using eq_comm
  | some n => simp [operandField, operandMask, regField_eq_iff]

variable {i : Instr} {op : BitVec 8} {v : Word} {rd ra rb rc : Fin 16}

theorem decode_iff_mask {mask : Word} {a b c : Option (Fin 16)}
    (hi : instrFields i = ⟨op, regField rd, operandField a, operandField b, operandField c, 0#8⟩)
    (hmask : splitFields mask =
      ⟨BitVec.allOnes 8, 0#4, operandMask a, operandMask b, operandMask c, BitVec.allOnes 8⟩)
    (hv : splitFields v = ⟨op, 0#4, 0#4, 0#4, 0#4, 0#8⟩) (w : Word) :
    decode w = .ok i ↔ w &&& mask = v ∧ rd.val = w.toNat / 2 ^ 20 % 16 ∧ (∀ n ∈ a, n.val = w.toNat / 2 ^ 16 % 16) ∧
      (∀ n ∈ b, n.val = w.toNat / 2 ^ 12 % 16) ∧ ∀ n ∈ c, n.val = w.toNat / 2 ^ 8 % 16 := by
  rw [decode_eq_ok_iff_fields, hi, and_eq_opcode_iff hmask hv, ← splitFields_d_toNat, ← splitFields_a_toNat,
    ← splitFields_b_toNat, ← splitFields_c_toNat]
  obtain ⟨⟩ := splitFields w
  simp only [Fields.mk.injEq, regField_eq_iff, operandField_eq_iff]
  tauto

/-- Formats VVV, VVS and SVV. -/
theorem decode_iff_mask_dab (hi : instrFields i = ⟨op, regField rd, regField ra, regField rb, 0#4, 0#8⟩)
    (hv : splitFields v = ⟨op, 0#4, 0#4, 0#4, 0#4, 0#8⟩) (w : Word) :
    decode w = .ok i ↔ w &&& 0xFF000FFF#32 = v ∧ rd.val = w.toNat / 2 ^ 20 % 16 ∧ ra.val = w.toNat / 2 ^ 16 % 16 ∧
      rb.val = w.toNat / 2 ^ 12 % 16 := by
  simpa using decode_iff_mask (mask := 0xFF000FFF#32) (a := some ra) (b := some rb) (c := none) hi rfl hv w

/-- Format SV. -/
theorem decode_iff_mask_da (hi : instrFields i = ⟨op, regField rd, regField ra, 0#4, 0#4, 0#8⟩)
    (hv : splitFields v = ⟨op, 0#4, 0#4, 0#4, 0#4, 0#8⟩) (w : Word) :
    decode w = .ok i ↔ w &&& 0xFF00FFFF#32 = v ∧ rd.val = w.toNat / 2 ^ 20 % 16 ∧ ra.val = w.toNat / 2 ^ 16 % 16 := by
  simpa using decode_iff_mask (mask := 0xFF00FFFF#32) (a := some ra) (b := none) (c := none) hi rfl hv w

/-- Format V. -/
theorem decode_iff_mask_d (hi : instrFields i = ⟨op, regField rd, 0#4, 0#4, 0#4, 0#8⟩)
    (hv : splitFields v = ⟨op, 0#4, 0#4, 0#4, 0#4, 0#8⟩) (w : Word) :
    decode w = .ok i ↔ w &&& 0xFF0FFFFF#32 = v ∧ rd.val = w.toNat / 2 ^ 20 % 16 := by
  simpa using decode_iff_mask (mask := 0xFF0FFFFF#32) (a := none) (b := none) (c := none) hi rfl hv w

/-- Format VVVV. -/
theorem decode_iff_mask_dabc (hi : instrFields i = ⟨op, regField rd, regField ra, regField rb, regField rc, 0#8⟩)
    (hv : splitFields v = ⟨op, 0#4, 0#4, 0#4, 0#4, 0#8⟩) (w : Word) :
    decode w = .ok i ↔ w &&& 0xFF0000FF#32 = v ∧ rd.val = w.toNat / 2 ^ 20 % 16 ∧ ra.val = w.toNat / 2 ^ 16 % 16 ∧
      rb.val = w.toNat / 2 ^ 12 % 16 ∧ rc.val = w.toNat / 2 ^ 8 % 16 := by
  simpa using decode_iff_mask (mask := 0xFF0000FF#32) (a := some ra) (b := some rb) (c := some rc) hi rfl hv w

end Sys2Proof
end

section
/-! The statements about the encoding (30_encoding.md). -/

namespace Sys2Proof

/-- Settles O1: the decoder reads every register number back from its field. -/
theorem decodeOfEncodeIsTheCommand : Obligations.DecodeOfEncodeIsTheCommand := decode_encode

/-- Settles O2: the fields of the word are the command's, and they are the whole word. -/
theorem encodeOfDecodedIsTheWord : Obligations.EncodeOfDecodedIsTheWord := by
  intro w i hd
  rw [encode, decode_eq_ok_iff_fields.mp hd, joinFields_splitFields]

/-- Settles O3, row by row, by the register fields that the row's format uses. -/
theorem commandsMatchTheirMaskRows : Obligations.CommandsMatchTheirMaskRows := by
  intro w
  refine ⟨?vadd, ?vsub, ?vscl, ?vdot, ?vmag, ?vnrm, ?nrmq, ?nrml⟩
  case vadd => exact fun _ _ _ => decode_iff_mask_dab rfl rfl w
  case vsub => exact fun _ _ _ => decode_iff_mask_dab rfl rfl w
  case vscl => exact fun _ _ _ => decode_iff_mask_dab rfl rfl w
  case vdot => exact fun _ _ _ => decode_iff_mask_dab rfl rfl w
  case vmag => exact fun _ _ => decode_iff_mask_da rfl rfl w
  case vnrm => exact fun _ => decode_iff_mask_d rfl rfl w
  case nrmq => exact fun _ _ _ _ => decode_iff_mask_dabc rfl rfl w
  case nrml => exact fun _ _ _ _ => decode_iff_mask_dabc rfl rfl w

/-- Settles O4: the decoder refuses what the check of WellFormed refuses, which is what `IllegalWord` counts. -/
theorem refusedWordsAreTheIllegalOnes : Obligations.RefusedWordsAreTheIllegalOnes :=
  fun w => ⟨decode_eq_error_iff.trans (illegalWord_iff_wellFormed w).symm, illegalWord_iff_wellFormed w⟩

/-- Settles O5 by running the decoder on the fixed words. -/
theorem writtenOutWordsDecode : Obligations.WrittenOutWordsDecode := by
  unfold Obligations.WrittenOutWordsDecode
  decide

end Sys2Proof
end

section
/-! The square root: its digits from the top keep the root between the digits found and one unit of the last of them
(40_numeric_primitives.md R111). -/

namespace Sys2Proof.Machine

/-- From a lower bound of the root that is less than `2 ^ k` below it, the `k` digits left are those of the root. -/
theorem isqrtDigits_eq_sqrt {u : Nat} (k : Nat) {q : Nat} (hlo : q * q ≤ u) (hhi : u < (q + 2 ^ k) * (q + 2 ^ k)) :
    isqrtDigits u k q = Nat.sqrt u := by
  induction k generalizing q with
  | zero => exact Nat.eq_sqrt.mpr ⟨hlo, hhi⟩
  | succ k ih =>
    rw [isqrtDigits]
    split
    case isTrue h => exact ih h (by rwa [add_assoc, ← two_mul, ← pow_succ'])
    case isFalse h => exact ih hlo (not_le.mp h)

theorem isqrt_eq_sqrt (u : Wide) : isqrt u = Nat.sqrt u.toNat :=
  isqrtDigits_eq_sqrt 32 (Nat.zero_le _) (by have := u.isLt; omega)

/-- Settles O42: the digits give the library's root, which is below 2^32 because the pattern is below 2^64. -/
theorem isqrtIsTheFloorRoot : Obligations.IsqrtIsTheFloorRoot := by
  intro u
  rw [isqrt_eq_sqrt]
  exact ⟨Nat.sqrt_le _, Nat.lt_succ_sqrt _, Nat.sqrt_lt.mpr u.isLt⟩

end Sys2Proof.Machine
end

section
/-! The shift search: the table's entries, and the leading one through the coarse steps (40_numeric_primitives.md R112,
R113). -/

namespace Sys2Proof.Machine

@[simp] theorem shiftTable_length : shiftTable.length = 256 := by
  simp only [shiftTable, List.length_append, List.length_replicate, List.length_cons, List.length_nil]

/-- Settles O43, from the entries of the table one by one. -/
theorem shiftTableIsTheLeadingBit : Obligations.ShiftTableIsTheLeadingBit :=
  ⟨shiftTable_length, tableEntry_eq_log2 0, fun b hb => (tableEntry_eq_log2 b).trans (if_neg hb)⟩

/-- Entry 0 follows the rule of the others, for Lean's `Nat.log2 0` is 0. -/
theorem tableEntry_eq_log2_toNat (b : BitVec 8) : tableEntry b = Nat.log2 b.toNat := by
  rw [tableEntry_eq_log2]
  split
  case isTrue h => rw [h]; rfl
  case isFalse => rfl

theorem tableEntry_setWidth {m : Word} (h : m.toNat < 0x100) : tableEntry (m.setWidth 8) = Nat.log2 m.toNat := by
  rw [tableEntry_eq_log2_toNat, BitVec.toNat_setWidth, Nat.mod_eq_of_lt h]

/-- A coarse step takes eight off the position of the leading one. -/
theorem log2_eq_add_log2_div {n : Nat} (h : 0x100 ≤ n) : Nat.log2 n = 8 + Nat.log2 (n / 2 ^ 8) := by
  have hle : 8 ≤ Nat.log 2 n := Nat.le_log_of_pow_le Nat.one_lt_two h
  rw [Nat.log2_eq_log_two, Nat.log2_eq_log_two, Nat.log_div_base_pow, Nat.add_sub_cancel' hle]

/-- With a coarse step left for each byte above the lowest, the search adds the position of the leading one to the count
so far. -/
theorem shiftSearch_eq_log2 (n s : Nat) {m : Word} (h : m.toNat < 2 ^ (8 * (n + 1))) :
    shiftSearch n s m = s + Nat.log2 m.toNat := by
  induction n generalizing s m with
  | zero => rw [shiftSearch_fine 0 s h, tableEntry_setWidth h]
  | succ n ih =>
    obtain hm | hm := Nat.lt_or_ge m.toNat 0x100
    · rw [shiftSearch_fine _ s hm, tableEntry_setWidth hm]
    · have hshift : (m >>> 8).toNat = m.toNat / 2 ^ 8 := by rw [BitVec.toNat_ushiftRight, Nat.shiftRight_eq_div_pow]
      have hlt : (m >>> 8).toNat < 2 ^ (8 * (n + 1)) := by
        rw [hshift]; exact Nat.div_lt_of_lt_mul (by rwa [← pow_add, add_comm 8])
      rw [shiftSearch_coarse n s hm, ih (s + 8) hlt, hshift, log2_eq_add_log2_div hm, add_assoc]

theorem shiftCount_eq_log2 (m : Word) : shiftCount m = Nat.log2 m.toNat :=
  (shiftSearch_eq_log2 3 0 m.isLt).trans (Nat.zero_add _)

/-- Settles O44: three coarse steps reach every byte of a 32-bit word. -/
theorem shiftCountIsTheLeadingBit : Obligations.ShiftCountIsTheLeadingBit := by
  intro m hm
  have hpos : m.toNat ≠ 0 := BitVec.toNat_ne.mp hm
  exact ⟨shiftCount_eq_log2 m, shiftCount_eq_log2 m ▸ Nat.le_of_lt_succ ((Nat.log2_lt hpos).mpr m.isLt)⟩

end Sys2Proof.Machine
end

section
/-! Wide values read back as words: narrowing, the overflow test, and the cross product that never wraps
(40_numeric_primitives.md R104, R107, R108, R114). -/

namespace Sys2Proof.Machine

open Sys2Proof.Safety

theorem toNat_narrow (r : Wide) : (narrow r).toNat = r.toNat / 2 ^ 16 % 2 ^ 32 := by
  rw [narrow, BitVec.extractLsb'_toNat, Nat.shiftRight_eq_div_pow]

/-- A wrap to 64 bits loses nothing that narrowing keeps: bits 47:16 stand below it. -/
theorem narrow_ofInt (z : Int) : narrow (BitVec.ofInt 64 z) = word (z / 2 ^ 16) := by
  apply BitVec.eq_of_toNat_eq
  rw [toNat_narrow, word, BitVec.toNat_ofInt, BitVec.toNat_ofInt]
  omega

theorem narrow_eq_word (r : Wide) : narrow r = word (r.toInt / 2 ^ 16) := by
  rw [← narrow_ofInt, BitVec.ofInt_toInt]

/-- Settles O45: a pattern is the wrap of its signed value, so both readings follow from that of a wrapped integer. -/
theorem narrowIsTheWrappedFloor : Obligations.NarrowIsTheWrappedFloor :=
  ⟨fun r => ⟨rfl, narrow_eq_word r⟩, narrow_ofInt⟩

/-- Twice a magnitude fits 64 bits but for the magnitude of -2^63 (R107). -/
theorem natAbs_toInt_lt {r : Wide} (h : r ≠ 0x8000000000000000) : r.toInt.natAbs < 2 ^ 63 := by
  have hlo := BitVec.le_toInt r
  have hhi := BitVec.toInt_lt (x := r)
  have hne : r.toInt ≠ -2 ^ 63 := BitVec.toInt_ne.mpr h
  omega

theorem toNat_wideInt_wabs2 {r : Wide} (h : r ≠ 0x8000000000000000) :
    (wideInt (wabs2 r)).toNat = 2 * r.toInt.natAbs / 2 ^ 32 := by
  have habs := natAbs_toInt_lt h
  rw [wideInt, wabs2, BitVec.extractLsb'_toNat, BitVec.toNat_ofNat, Nat.shiftRight_eq_div_pow]
  omega

/-- Settles O46: the doubled magnitude does not wrap, and its upper half is 0 exactly below 2^32. -/
theorem overflowTestIsTheMagnitudeTest : Obligations.OverflowTestIsTheMagnitudeTest := by
  intro r hr
  refine ⟨toNat_wideInt_wabs2 hr, ?_⟩
  rw [BitVec.ofNat_eq_ofNat, ← BitVec.toNat_inj, toNat_wideInt_wabs2 hr, BitVec.toNat_zero]
  omega

/-- The three wide components are the exact integer cross product (R114 (b); 42_surface_normal.md R153 (a)). -/
theorem toInt_cross (e0 e1 : FixedVector) :
    (⟨(cross e0 e1).x.toInt, (cross e0 e1).y.toInt, (cross e0 e1).z.toInt⟩ : IntVector) =
      exactCross (ints e0) (ints e1) := by
  simp only [cross, exactCross, ints, toInt_wsub_wmul, mul_comm]

/-- The bound of a difference of two products (R114 (b)): one product at its top, the other at its bottom. -/
theorem natAbs_mul_sub_mul_le (p q t u : Word) :
    (p.toInt * q.toInt - t.toInt * u.toInt).natAbs ≤ 2 ^ 63 - 2 ^ 31 := by
  obtain ⟨hpq, hpq'⟩ := mul_bounds p q
  obtain ⟨htu, htu'⟩ := mul_bounds t u
  omega

/-- Settles O47: each component is a difference of two products of words, exact and bounded. -/
theorem crossProductIsExact : Obligations.CrossProductIsExact := fun e0 e1 =>
  ⟨toInt_cross e0 e1, max_le (natAbs_mul_sub_mul_le e0.y e1.z e0.z e1.y)
    (max_le (natAbs_mul_sub_mul_le e0.z e1.x e0.x e1.z) (natAbs_mul_sub_mul_le e0.x e1.y e0.y e1.x))⟩

end Sys2Proof.Machine
end

section
/-! Command words as numbers, and the frames of the two register writes (30_encoding.md R80, R83;
41_basic_vector_ops.md R130). -/

namespace Sys2Proof

theorem toNat_encode (i : Instr) : (encode i).toNat =
    (instrFields i).op.toNat * 2 ^ 24 + (instrFields i).d.toNat * 2 ^ 20 + (instrFields i).a.toNat * 2 ^ 16 +
      (instrFields i).b.toNat * 2 ^ 12 + (instrFields i).c.toNat * 2 ^ 8 + (instrFields i).z.toNat :=
  toNat_joinFields (instrFields i)

end Sys2Proof

namespace Sys2Proof.Machine

open Sys2Proof.Safety

theorem portSame_refl (s : State) : PortSame s s := ⟨rfl, rfl, rfl⟩

/-- The words of `V[r]` stand at the three indices from `4 * r` on (20_memory.md R51). -/
theorem toNat_bounds_of_mapEntry_vector {idx : BitVec 8} {r : VReg} {c : Component} (h : mapEntry idx = .vector r c) :
    4 * r.val ≤ idx.toNat ∧ idx.toNat < 4 * r.val + 3 := by
  have hidx := (toNat_eq_entryIndex idx).resolve_left (by simp [h])
  rw [h, entryIndex] at hidx
  cases c <;> simp only [componentOffset] at hidx <;> omega

/-- The word of `S[r]` stands at index `0x40 + r` (20_memory.md R51). -/
theorem toNat_of_mapEntry_scalar {idx : BitVec 8} {r : SReg} (h : mapEntry idx = .scalar r) :
    idx.toNat = 0x40 + r.val := by
  have hidx := (toNat_eq_entryIndex idx).resolve_left (by simp [h])
  rwa [h] at hidx

theorem frameVector_writeV (s : State) (d : VReg) (v : FixedVector) : FrameVector d s (writeV s d v) :=
  ⟨fun _ hr => readV_writeV_other s v hr, fun _ => rfl, controlSame_writeV s d v, portSame_refl s,
    fun _ hidx => mapRead_writeV_other (fun _ he => hidx (toNat_bounds_of_mapEntry_vector he)) s v⟩

theorem frameScalar_writeS (s : State) (d : SReg) (w : Word) : FrameScalar d s (writeS s d w) :=
  ⟨fun _ => rfl, fun _ hr => readS_writeS_other s w hr, controlSame_writeS s d w, portSame_refl s,
    fun _ hidx => mapRead_writeS_other (fun he => hidx (toNat_of_mapEntry_scalar he)) s w⟩

end Sys2Proof.Machine
end

section
/-! What every command leaves: all registers but its destination, and the port (41_basic_vector_ops.md R130). -/

namespace Sys2Proof.Machine

open Sys2Proof.Safety

/-- Every register but the named destination, and the port, are the same. -/
def RegistersSameBut (dest : VReg ⊕ SReg) (s t : State) : Prop :=
  (∀ r : VReg, dest ≠ .inl r → readV t r = readV s r) ∧ (∀ r : SReg, dest ≠ .inr r → readS t r = readS s r) ∧
  PortSame s t

theorem registersSameBut_writeV (s : State) (d : VReg) (v : FixedVector) :
    RegistersSameBut (.inl d) s (writeV s d v) :=
  ⟨fun _ hr => readV_writeV_other s v fun e => hr (congrArg _ e.symm), fun _ _ => rfl, portSame_refl s⟩

theorem registersSameBut_writeS (s : State) (d : SReg) (w : Word) : RegistersSameBut (.inr d) s (writeS s d w) :=
  ⟨fun _ _ => rfl, fun _ hr => readS_writeS_other s w fun e => hr (congrArg _ e.symm), portSame_refl s⟩

/-- Normalizing in place writes its register at most, also when seen from the state `s` before NRML's write of the
quick result. -/
theorem registersSameBut_normalizeInPlace {s u : State} {d : VReg} (hu : RegistersSameBut (.inl d) s u) (w : Word) :
    RegistersSameBut (.inl d) s (normalizeInPlace w d u) := by
  obtain ⟨hv, hs, hp⟩ := hu
  obtain ⟨-, h⟩ | ⟨-, h⟩ := normalizeInPlace_cases w d u <;> rw [h]
  · exact ⟨fun r hr => (readV_raiseFault ..).trans (hv r hr), fun r hr => (readS_raiseFault ..).trans (hs r hr), hp⟩
  · exact ⟨fun r hr => (readV_writeV_other u _ fun e => hr (congrArg _ e.symm)).trans (hv r hr), hs, hp⟩

/-- A command answers a next state and writes no register but its destination. -/
theorem exec_registersSameBut (i : Instr) (s : State) :
    ∃ t, exec i s = .next t ∧ RegistersSameBut (destination i) s t := by
  cases i with
  | vadd d | vsub d | vscl d | nrmq d => exact ⟨_, rfl, registersSameBut_writeV s d _⟩
  | vdot d | vmag d => exact ⟨_, rfl, registersSameBut_writeS s d _⟩
  | vnrm d =>
    exact ⟨_, rfl, registersSameBut_normalizeInPlace ⟨fun _ _ => rfl, fun _ _ => rfl, portSame_refl s⟩ _⟩
  | nrml d => exact ⟨_, rfl, registersSameBut_normalizeInPlace (registersSameBut_writeV s d _) _⟩

/-- Settles O22: the registers by the command's one destination, the flags by `exec_control_cases`. -/
theorem commandsWriteOnlyTheirDestination : Obligations.CommandsWriteOnlyTheirDestination := by
  intro i s
  obtain ⟨t, he, hv, hs, hp⟩ := exec_registersSameBut i s
  obtain ⟨hz, hl, hze, hle, hf⟩ | ⟨hi, hz, hl, hze, hle, hf⟩ := exec_control_cases he
  · exact ⟨t, he, hv, hs, hze, hle, hl, hp, .inl ⟨hz, hf⟩⟩
  · exact ⟨t, he, hv, hs, hze, hle, hl, hp, .inr ⟨hz, hf, hi⟩⟩

end Sys2Proof.Machine
end

section
/-! Sums, differences, products and dot products of vectors as exact integers (41_basic_vector_ops.md R131 to R134). -/

namespace Sys2Proof.Machine

open Sys2Proof.Safety

/-- A wrapped difference and a wrapped sum undo each other: both work modulo 2^32 (90_conflicts.md C5). -/
theorem vecAdd_vecSub_cancel (v w : FixedVector) : vecAdd (vecSub v w) w = v := by
  simp only [vecAdd, vecSub, fixAdd_eq, fixSub_eq, BitVec.sub_add_cancel]

/-- One product is floored and wrapped (40_numeric_primitives.md R105). -/
theorem fixMul_eq_word (a b : Word) : fixMul a b = word (a.toInt * b.toInt / 2 ^ 16) := narrow_ofInt _

theorem vecScale_eq (v : FixedVector) (k : Word) : vecScale v k =
    ⟨word (v.x.toInt * k.toInt / 2 ^ 16), word (v.y.toInt * k.toInt / 2 ^ 16), word (v.z.toInt * k.toInt / 2 ^ 16)⟩ := by
  simp only [vecScale, fixMul_eq_word]

theorem fixMul_zero (a : Word) : fixMul a 0 = 0 := by
  simp [fixMul_eq_word, word]

/-- The pattern 0x00010000 is 1.0: the product is the word times 2^16, so its floor is the word. -/
theorem fixMul_one (a : Word) : fixMul a 0x00010000 = a := by
  have hk : (0x00010000 : Word).toInt = 2 ^ 16 := by decide
  rw [fixMul_eq_word, hk, Int.mul_ediv_cancel _ (by norm_num), word, BitVec.ofInt_toInt]

/-- The pattern 0xFFFF0000 is -1.0. -/
theorem fixMul_neg_one (a : Word) : fixMul a 0xFFFF0000 = -a := by
  have hk : (0xFFFF0000 : Word).toInt = -2 ^ 16 := by decide
  rw [fixMul_eq_word, hk, mul_neg, ← neg_mul, Int.mul_ediv_cancel _ (by norm_num), word, BitVec.ofInt_neg,
    BitVec.ofInt_toInt]

/-- The accumulator is the exact sum of products, wrapped once. -/
theorem dotAcc_eq_ofInt (v w : FixedVector) : dotAcc v w =
    BitVec.ofInt 64 (v.x.toInt * w.x.toInt + v.y.toInt * w.y.toInt + v.z.toInt * w.z.toInt) := by
  simp only [dotAcc, wadd_eq, wmul, BitVec.ofInt_add]

theorem narrow_dotAcc (v w : FixedVector) : narrow (dotAcc v w) =
    word ((v.x.toInt * w.x.toInt + v.y.toInt * w.y.toInt + v.z.toInt * w.z.toInt) / 2 ^ 16) := by
  rw [dotAcc_eq_ofInt, narrow_ofInt]

theorem dotAcc_comm (v w : FixedVector) : dotAcc v w = dotAcc w v := by
  simp only [dotAcc_eq_ofInt, mul_comm]

/-- Settles O23: `fix_add` is the wrapped sum by its definition. -/
theorem vaddAddsEachComponent : Obligations.VaddAddsEachComponent := fun d _ _ s =>
  ⟨by simp [toNat_encode, instrFields], _, rfl, readV_writeV_same .., frameVector_writeV s d _⟩

/-- Settles O24: `fix_sub` is the wrapped difference by its definition. -/
theorem vsubSubtractsEachComponent : Obligations.VsubSubtractsEachComponent := fun d _ _ s =>
  ⟨by simp [toNat_encode, instrFields], _, rfl, readV_writeV_same .., frameVector_writeV s d _⟩

/-- Settles O25: the narrowed product is the floor over 2^16, wrapped, component by component. -/
theorem vsclScalesEachComponent : Obligations.VsclScalesEachComponent := fun d _ _ s =>
  ⟨by simp [toNat_encode, instrFields], _, rfl, (readV_writeV_same ..).trans (vecScale_eq ..), frameVector_writeV s d _⟩

/-- Settles O26: narrowing does not see whether the accumulator of the sum wrapped. -/
theorem vdotNarrowsTheExactSum : Obligations.VdotNarrowsTheExactSum := fun d _ _ s =>
  ⟨by simp [toNat_encode, instrFields], _, rfl, (readS_writeS_same ..).trans (narrow_dotAcc ..), frameScalar_writeS s d _⟩

/-- Settles O38: the subtrahend is read unchanged by VADD, as VSUB wrote another register. -/
theorem vsubThenVaddRestores : Obligations.VsubThenVaddRestores := by
  intro d e a b s heb
  refine ⟨_, _, rfl, rfl, ?_⟩
  rw [readV_writeV_same, readV_writeV_same, readV_writeV_other s _ heb.symm, vecAdd_vecSub_cancel]

/-- Settles O39: the accumulator does not depend on the order of the operands. -/
theorem vdotCommutes : Obligations.VdotCommutes := fun d a b s =>
  congrArg (fun acc => Host.Outcome.next (writeS s d (narrow acc))) (dotAcc_comm (readV s a) (readV s b))

/-- Settles O41, from the products by the patterns of 1.0, 0 and -1.0. -/
theorem vsclByOneZeroAndMinusOne : Obligations.VsclByOneZeroAndMinusOne := by
  intro d a b s
  refine ⟨_, rfl, fun hb => ?_, fun hb => ?_, fun hb => ?_⟩ <;> rw [readV_writeV_same, hb, vecScale]
  · simp only [fixMul_one]
  · simp only [fixMul_zero, zeroVector]
  · simp only [fixMul_neg_one]

end Sys2Proof.Machine
end

section
/-! The magnitude: the accumulator of three squares is exact when read as unsigned, so its root is the floor root of the
exact sum of squares (41_basic_vector_ops.md R135; 40_numeric_primitives.md R111, R114). -/

namespace Sys2Proof.Machine

open Sys2Proof.Safety

theorem mul_self_toInt_le (a : Word) : a.toInt * a.toInt ≤ 2 ^ 62 := (mul_bounds a a).2

theorem sumSquares_nonneg (v : IntVector) : 0 ≤ sumSquares v :=
  add_nonneg (add_nonneg (mul_self_nonneg v.x) (mul_self_nonneg v.y)) (mul_self_nonneg v.z)

theorem sumSquares_ints_le (v : FixedVector) : sumSquares (ints v) ≤ 3 * 2 ^ 62 := by
  have hx := mul_self_toInt_le v.x
  have hy := mul_self_toInt_le v.y
  have hz := mul_self_toInt_le v.z
  simp only [sumSquares, ints]
  omega

/-- Three squares fit the accumulator as an unsigned pattern (90_conflicts.md C8). -/
theorem toNat_dotAcc_self (v : FixedVector) : ((dotAcc v v).toNat : Int) = sumSquares (ints v) := by
  have h0 := sumSquares_nonneg (ints v)
  have hle := sumSquares_ints_le v
  rw [show dotAcc v v = BitVec.ofInt 64 (sumSquares (ints v)) from dotAcc_eq_ofInt v v, BitVec.toNat_ofInt]
  omega

theorem toNat_magnitude (v : FixedVector) : (magnitude v).toNat = Nat.sqrt (dotAcc v v).toNat := by
  rw [magnitude, isqrt_eq_sqrt, BitVec.toNat_ofNat, Nat.mod_eq_of_lt (Nat.sqrt_lt.mpr (dotAcc v v).isLt)]

theorem isMagnitude_magnitude (v : FixedVector) : IsMagnitude (ints v) (magnitude v).toNat := by
  rw [IsMagnitude, ← toNat_dotAcc_self, toNat_magnitude]
  exact ⟨by exact_mod_cast Nat.sqrt_le _, by exact_mod_cast Nat.lt_succ_sqrt _⟩

theorem largest_le_iff {v : IntVector} {n : Nat} :
    largest v ≤ n ↔ v.x.natAbs ≤ n ∧ v.y.natAbs ≤ n ∧ v.z.natAbs ≤ n := by
  simp only [largest, max_le_iff]

theorem largest_ints_le_iff {v : FixedVector} {n : Nat} :
    largest (ints v) ≤ n ↔ v.x.toInt.natAbs ≤ n ∧ v.y.toInt.natAbs ≤ n ∧ v.z.toInt.natAbs ≤ n := largest_le_iff

theorem largest_ints_lt_iff {v : FixedVector} {n : Nat} :
    largest (ints v) < n ↔ v.x.toInt.natAbs < n ∧ v.y.toInt.natAbs < n ∧ v.z.toInt.natAbs < n := by
  simp only [largest, ints, max_lt_iff]

/-- A component whose square is in the sum is no larger than the root. -/
theorem natAbs_le_of_mul_self_le {c n : Int} {q : Nat} (hc : c * c ≤ n) (hn : n < ((q : Int) + 1) * (q + 1)) :
    c.natAbs ≤ q := by
  have hlt : (c.natAbs : Int) < q + 1 :=
    lt_of_mul_self_lt_mul_self₀ (by omega) (by rw [Int.natAbs_mul_self']; omega)
  omega

theorem largest_le_of_isMagnitude {v : IntVector} {q : Nat} (h : IsMagnitude v q) : largest v ≤ q := by
  obtain ⟨-, hlt⟩ := h
  have hx := mul_self_nonneg v.x
  have hy := mul_self_nonneg v.y
  have hz := mul_self_nonneg v.z
  rw [sumSquares] at hlt
  exact largest_le_iff.mpr ⟨natAbs_le_of_mul_self_le (by omega) hlt, natAbs_le_of_mul_self_le (by omega) hlt,
    natAbs_le_of_mul_self_le (by omega) hlt⟩

/-- 0xDDB3D742 is the floor of `sqrt 3 * 2 ^ 31` (R114 (e)). -/
theorem toNat_magnitude_le (v : FixedVector) : (magnitude v).toNat ≤ 0xDDB3D742 := by
  obtain ⟨hle, -⟩ := isMagnitude_magnitude v
  have hsum := sumSquares_ints_le v
  by_contra h
  have : (0xDDB3D743 : Int) * 0xDDB3D743 ≤ (magnitude v).toNat * (magnitude v).toNat :=
    mul_self_le_mul_self (by norm_num) (by omega)
  omega

theorem eq_zeroVector_of_largest {v : FixedVector} (h : largest (ints v) = 0) : v = zeroVector := by
  obtain ⟨x, y, z⟩ := v
  simpa [largest, ints, zeroVector, ← BitVec.toInt_inj] using h

theorem magnitude_eq_zero_iff (v : FixedVector) : magnitude v = 0 ↔ v = zeroVector := by
  constructor
  · intro h
    have hle := largest_le_of_isMagnitude (isMagnitude_magnitude v)
    rw [h] at hle
    exact eq_zeroVector_of_largest (Nat.le_zero.mp hle)
  · rintro rfl
    decide

/-- Settles O27: VMAG's result is the magnitude as an unsigned word. -/
theorem vmagIsTheFloorRoot : Obligations.VmagIsTheFloorRoot := by
  intro d a s
  refine ⟨by simp [toNat_encode, instrFields], _, rfl, ?_, frameScalar_writeS s d _⟩
  rw [readS_writeS_same]
  exact isMagnitude_magnitude _

/-- Settles O40, from the bounds of the magnitude. -/
theorem vmagBoundsEachComponent : Obligations.VmagBoundsEachComponent := by
  intro d a s
  refine ⟨_, rfl, ?_⟩
  rw [readS_writeS_same]
  exact ⟨magnitude_eq_zero_iff _, largest_le_of_isMagnitude (isMagnitude_magnitude _), toNat_magnitude_le _⟩

/-- Settles O48: VMAG reads the vector that VSCL wrote, and its root is exact for every vector. -/
theorem vsclThenVmagIsTheRootOfTheFloors : Obligations.VsclThenVmagIsTheRootOfTheFloors := by
  intro e a b d s
  refine ⟨_, _, rfl, rfl, ?_⟩
  rw [readV_writeS, readV_writeV_same, readS_writeS_same, ← vecScale_eq]
  exact ⟨rfl, isMagnitude_magnitude _⟩

end Sys2Proof.Machine
end

section
/-! Normalizing: VNRM by the magnitude it finds, and the sizes of its quotients (41_basic_vector_ops.md R136). -/

namespace Sys2Proof.Machine

open Sys2Proof.Safety

theorem exec_vnrm_of_zero {d : VReg} {s : State} (h : magnitude (readV s d) = 0) :
    exec (.vnrm d) s = .next (raiseFault .divideByZero (encode (.vnrm d)) s) :=
  congrArg _ (if_pos h)

theorem exec_vnrm_of_ne_zero {d : VReg} {s : State} (h : magnitude (readV s d) ≠ 0) :
    exec (.vnrm d) s = .next (writeV s d (vecDiv (readV s d) (magnitude (readV s d)))) :=
  congrArg _ (if_neg h)

theorem vecDiv_of_ne_zero (v : FixedVector) {k : Word} (hk : k ≠ 0) : vecDiv v k =
    ⟨word ((v.x.toInt * 2 ^ 16).tdiv k.toInt), word ((v.y.toInt * 2 ^ 16).tdiv k.toInt),
      word ((v.z.toInt * 2 ^ 16).tdiv k.toInt)⟩ := by
  simp only [vecDiv, fixDiv_of_ne_zero _ hk, word]

/-- The signed reading is negative from 2^31 on, with the complement to 2^32 as its size. -/
theorem natAbs_toInt_word (k : Word) : k.toInt.natAbs = if k.toNat < 2 ^ 31 then k.toNat else 2 ^ 32 - k.toNat := by
  have := k.isLt
  rw [BitVec.toInt_eq_toNat_cond]
  split <;> split <;> omega

/-- The size of one quotient: a divisor below 2^31 is at least the component; one that reads as negative is at least
`2 ^ 32 - 0xDDB3D742` in size, which is above 2^29. -/
theorem natAbs_quotient_bounds {a k : Word} (hak : a.toInt.natAbs ≤ k.toNat) (hle : k.toNat ≤ 0xDDB3D742) :
    ((a.toInt * 2 ^ 16).tdiv k.toInt).natAbs < 2 ^ 18 ∧
      (k.toNat < 2 ^ 31 → ((a.toInt * 2 ^ 16).tdiv k.toInt).natAbs ≤ 2 ^ 16) := by
  have hquot : ((a.toInt * 2 ^ 16).tdiv k.toInt).natAbs = a.toInt.natAbs * 2 ^ 16 / k.toInt.natAbs := by
    rw [Int.natAbs_tdiv, Int.natAbs_mul]; rfl
  rw [hquot, natAbs_toInt_word k]
  split
  case isTrue h =>
    have hq : a.toInt.natAbs * 2 ^ 16 / k.toNat ≤ 2 ^ 16 := Nat.div_le_of_le_mul (Nat.mul_le_mul_right _ hak)
    exact ⟨hq.trans_lt (by norm_num), fun _ => hq⟩
  case isFalse h =>
    have ha := toInt_word_bounds a
    exact ⟨(Nat.div_lt_iff_lt_mul (by omega)).mpr (by omega), fun h' => absurd h' h⟩

/-- Divided by such a magnitude a component does not wrap, for the quotient is far inside 32 bits. -/
theorem toInt_fixDiv {a k : Word} (hk : k ≠ 0) (hak : a.toInt.natAbs ≤ k.toNat) (hle : k.toNat ≤ 0xDDB3D742) :
    (fixDiv a k).toInt = (a.toInt * 2 ^ 16).tdiv k.toInt := by
  obtain ⟨hlt, -⟩ := natAbs_quotient_bounds hak hle
  rw [fixDiv_of_ne_zero a hk]
  exact toInt_ofInt_word (by omega) (by omega)

theorem natAbs_fixDiv_bounds {a k : Word} (hk : k ≠ 0) (hak : a.toInt.natAbs ≤ k.toNat) (hle : k.toNat ≤ 0xDDB3D742) :
    (fixDiv a k).toInt.natAbs < 2 ^ 18 ∧ (k.toNat < 2 ^ 31 → (fixDiv a k).toInt.natAbs ≤ 2 ^ 16) := by
  rw [toInt_fixDiv hk hak hle]
  exact natAbs_quotient_bounds hak hle

/-- Settles O28: the quotient by the magnitude, or DivideByZero when it is 0. -/
theorem vnrmDividesByTheMagnitude : Obligations.VnrmDividesByTheMagnitude := by
  intro d s
  refine ⟨by simp [toNat_encode, instrFields], (magnitude (readV s d)).toNat, BitVec.isLt _, isMagnitude_magnitude _,
    fun hq => exec_vnrm_of_zero (BitVec.eq_of_toNat_eq hq), fun hq => ?_⟩
  have hm : magnitude (readV s d) ≠ 0 := BitVec.toNat_ne.mpr hq
  refine ⟨_, exec_vnrm_of_ne_zero hm, ?_, frameVector_writeV s d _⟩
  rw [readV_writeV_same, vecDiv_of_ne_zero _ hm, BitVec.ofNat_toNat, BitVec.setWidth_eq]

/-- Settles O29: the magnitude is not 0, and it bounds every component it divides. -/
theorem vnrmCompletesOnNonzeroVectors : Obligations.VnrmCompletesOnNonzeroVectors := by
  intro d s hv
  have hm : magnitude (readV s d) ≠ 0 := mt (magnitude_eq_zero_iff _).mp hv
  have hmag := isMagnitude_magnitude (readV s d)
  have hle := toNat_magnitude_le (readV s d)
  obtain ⟨hx, hy, hz⟩ := largest_ints_le_iff.mp (largest_le_of_isMagnitude hmag)
  have hpos : (magnitude (readV s d)).toNat ≠ 0 := BitVec.toNat_ne.mp hm
  refine ⟨_, _, Nat.pos_of_ne_zero hpos, BitVec.isLt _, hmag, exec_vnrm_of_ne_zero hm, frameVector_writeV s d _, ?_⟩
  rw [readV_writeV_same, BitVec.ofNat_toNat, BitVec.setWidth_eq]
  obtain ⟨hxlt, hxle⟩ := natAbs_fixDiv_bounds hm hx hle
  obtain ⟨hylt, hyle⟩ := natAbs_fixDiv_bounds hm hy hle
  obtain ⟨hzlt, hzle⟩ := natAbs_fixDiv_bounds hm hz hle
  exact ⟨⟨toInt_fixDiv hm hx hle, toInt_fixDiv hm hy hle, toInt_fixDiv hm hz hle⟩,
    largest_ints_lt_iff.mpr ⟨hxlt, hylt, hzlt⟩, fun hq => largest_ints_le_iff.mpr ⟨hxle hq, hyle hq, hzle hq⟩⟩

end Sys2Proof.Machine
end

section
/-! The steps of the quick normal on exact integers: the wrapped edges, the combined value, the shift by its leading one
and the two floors (42_surface_normal.md R151). -/

namespace Sys2Proof.Machine

open Sys2Proof.Safety

/-- The signed reading of three wide components. -/
def wideInts (r : WideVector) : IntVector := ⟨r.x.toInt, r.y.toInt, r.z.toInt⟩

/-- A wrapped component-wise difference is the exact edge (step 1). -/
theorem ints_vecSub (p q : FixedVector) : ints (vecSub q p) = edge p q := by
  simp only [ints, vecSub, fixSub, edge, BitVec.toInt_ofInt]

/-- The wide cross product of the wrapped edges never wraps (step 2; R153 (a)). -/
theorem wideInts_cross_edges (v0 v1 v2 : FixedVector) :
    wideInts (cross (vecSub v1 v0) (vecSub v2 v1)) = normalOf v0 v1 v2 := by
  rw [normalOf, ← ints_vecSub, ← ints_vecSub]
  exact toInt_cross _ _

theorem largest_normalOf_le (v0 v1 v2 : FixedVector) : largest (normalOf v0 v1 v2) ≤ 2 ^ 63 - 2 ^ 31 := by
  rw [normalOf, ← ints_vecSub, ← ints_vecSub]
  exact (crossProductIsExact _ _).2

theorem ne_minWide_of_natAbs_lt {r : Wide} (h : r.toInt.natAbs < 2 ^ 63) : r ≠ 0x8000000000000000 := by
  rintro rfl
  exact absurd h (by decide)

/-- The combined word is the combined value of the exact components (step 4). -/
theorem toNat_combined {r : WideVector} (h : largest (wideInts r) < 2 ^ 63) :
    (combined r).toNat = combinedValue (wideInts r) := by
  obtain ⟨hx, hy, hz⟩ := largest_le_iff.mp (Nat.le_pred_of_lt h)
  have reads {c : Wide} (hc : c.toInt.natAbs ≤ 2 ^ 63 - 1) :
      (wideInt (wabs2 c)).toNat = 2 * c.toInt.natAbs / 2 ^ 32 :=
    toNat_wideInt_wabs2 (ne_minWide_of_natAbs_lt (by omega))
  rw [combined, BitVec.toNat_or, BitVec.toNat_or, reads hx, reads hy, reads hz]
  rfl

/-- Shift and narrowing are two floors (step 6). -/
theorem narrowShifted_eq (r : WideVector) (k : Nat) : narrowShifted r k =
    ⟨word ((wideInts r).x / 2 ^ k / 2 ^ 16), word ((wideInts r).y / 2 ^ k / 2 ^ 16),
      word ((wideInts r).z / 2 ^ k / 2 ^ 16)⟩ := by
  simp only [narrowShifted, narrow_eq_word, toInt_asr, wideInts]

/-- The early return of step 4 is the shift by 0, which is the shift count of 0. -/
theorem quick_eq_narrowShifted (v0 v1 v2 : FixedVector) : quick v0 v1 v2 =
    narrowShifted (cross (vecSub v1 v0) (vecSub v2 v1)) (shiftCount (combined (cross (vecSub v1 v0) (vecSub v2 v1)))) := by
  rw [quick]
  split
  case isTrue h =>
    have hs : shiftCount 0 = 0 := by decide
    rw [h, hs, narrowShifted, asr_zero, asr_zero, asr_zero]
  case isFalse => rfl

/-- The shift count is the leading one of the combined value (step 5). -/
theorem quick_eq_words (v0 v1 v2 : FixedVector) : quick v0 v1 v2 =
    ⟨word ((normalOf v0 v1 v2).x / 2 ^ Nat.log2 (combinedValue (normalOf v0 v1 v2)) / 2 ^ 16),
      word ((normalOf v0 v1 v2).y / 2 ^ Nat.log2 (combinedValue (normalOf v0 v1 v2)) / 2 ^ 16),
      word ((normalOf v0 v1 v2).z / 2 ^ Nat.log2 (combinedValue (normalOf v0 v1 v2)) / 2 ^ 16)⟩ := by
  have hlt : largest (normalOf v0 v1 v2) < 2 ^ 63 := (largest_normalOf_le v0 v1 v2).trans_lt (by norm_num)
  rw [← wideInts_cross_edges] at hlt ⊢
  rw [quick_eq_narrowShifted, shiftCount_eq_log2, toNat_combined hlt, narrowShifted_eq]

theorem exec_nrmq (d a b c : VReg) (s : State) :
    exec (.nrmq d a b c) s = .next (writeV s d (quick (readV s a) (readV s b) (readV s c))) := rfl

/-- Settles O30: no shift is the shift by the leading one of 0, for Lean's `Nat.log2 0` is 0. -/
theorem nrmqFollowsTheSteps : Obligations.NrmqFollowsTheSteps := by
  intro d a b c s
  refine ⟨by simp [toNat_encode, instrFields], _, exec_nrmq d a b c s, frameVector_writeV s d _, ?_⟩
  have hk (m : Nat) : (if m = 0 then 0 else Nat.log2 m) = Nat.log2 m := by
    split
    case isTrue h => rw [h, Nat.log2_zero]
    case isFalse => rfl
  simp only [hk]
  rw [readV_writeV_same, quick_eq_words]

end Sys2Proof.Machine
end

section
/-! The quick normal as one floor: the leading one of the combined value is that of the largest magnitude, and the shift
by it brings every component into 17 bits (42_surface_normal.md R153 (c), (d), (f), (g)). -/

namespace Sys2Proof.Machine

open Sys2Proof.Safety

theorem log2_or (m n : Nat) : Nat.log2 (m ||| n) = max (Nat.log2 m) (Nat.log2 n) := by
  simp only [Nat.log2_eq_log_two]
  refine le_antisymm ?_ (max_le (Nat.log_mono_right Nat.left_le_or) (Nat.log_mono_right Nat.right_le_or))
  have fits {k : Nat} (hk : Nat.log 2 k ≤ max (Nat.log 2 m) (Nat.log 2 n)) :
      k < 2 ^ (max (Nat.log 2 m) (Nat.log 2 n) + 1) :=
    (Nat.lt_pow_succ_log_self Nat.one_lt_two k).trans_le (Nat.pow_le_pow_right two_pos (by omega))
  exact Nat.le_of_lt_succ (Nat.log_lt_of_lt_pow' (Nat.succ_ne_zero _)
    (Nat.or_lt_two_pow (fits (le_max_left ..)) (fits (le_max_right ..))))

theorem log2_max (m n : Nat) : Nat.log2 (max m n) = max (Nat.log2 m) (Nat.log2 n) := by
  simp only [Nat.log2_eq_log_two]
  exact Nat.log_monotone.map_max

/-- The integer part of a doubled magnitude has its leading one 31 places below. -/
theorem log2_two_mul_div (n : Nat) : Nat.log2 (2 * n / 2 ^ 32) = Nat.log2 n - 31 := by
  rw [show 2 * n / 2 ^ 32 = n / 2 ^ 31 by omega, Nat.log2_eq_log_two, Nat.log2_eq_log_two, Nat.log_div_base_pow]

/-- Below 2^31 the difference is cut off at 0. -/
theorem normalShift_eq (r : IntVector) : normalShift r = Nat.log2 (largest r) - 31 := by
  rw [normalShift]
  split
  case isTrue h =>
    have hlog : Nat.log 2 (largest r) < 31 := Nat.log_lt_of_lt_pow' (by norm_num) h
    rw [Nat.log2_eq_log_two]; omega
  case isFalse => rfl

/-- The leading one of the OR is that of the largest part, so the shift depends on the largest magnitude alone
(R153 (d)). -/
theorem log2_combinedValue (r : IntVector) : Nat.log2 (combinedValue r) = normalShift r := by
  rw [normalShift_eq, largest, combinedValue, log2_or, log2_or, log2_max, log2_max]
  simp only [log2_two_mul_div]
  omega

theorem normalShift_of_lt {r : IntVector} (h : largest r < 2 ^ 31) : normalShift r = 0 := if_pos h

theorem largest_lt_of_normalShift (r : IntVector) : largest r < 2 ^ (normalShift r + 32) := by
  rw [normalShift_eq]
  exact Nat.lt_log2_self.trans_le (Nat.pow_le_pow_right two_pos (by omega))

theorem le_largest_of_normalShift {r : IntVector} (h : 2 ^ 31 ≤ largest r) : 2 ^ (normalShift r + 31) ≤ largest r := by
  have hne : largest r ≠ 0 := by omega
  have hlog : 31 ≤ Nat.log2 (largest r) := (Nat.le_log2 hne).mpr h
  rw [normalShift_eq, Nat.sub_add_cancel hlog]
  exact Nat.log2_self_le hne

theorem ediv_bounds_of_natAbs_lt {c : Int} {k : Nat} (h : c.natAbs < 2 ^ (k + 32)) :
    -(2 ^ 16) ≤ c / 2 ^ (k + 16) ∧ c / 2 ^ (k + 16) < 2 ^ 16 := by
  have hpos : (0 : Int) < 2 ^ (k + 16) := by positivity
  have hc : |c| < 2 ^ 16 * 2 ^ (k + 16) := by
    rw [← pow_add, add_comm, add_assoc, Int.abs_eq_natAbs]; exact_mod_cast h
  obtain ⟨hlo, hhi⟩ := abs_lt.mp hc
  exact ⟨(Int.le_ediv_iff_mul_le hpos).mpr (by rw [neg_mul]; exact hlo.le), (Int.ediv_lt_iff_lt_mul hpos).mpr hhi⟩

theorem le_natAbs_ediv {c : Int} {k : Nat} (h : 2 ^ (k + 31) ≤ c.natAbs) : 2 ^ 15 ≤ (c / 2 ^ (k + 16)).natAbs := by
  have hle : 2 ^ 15 ≤ c.natAbs / 2 ^ (k + 16) :=
    (Nat.le_div_iff_mul_le (by positivity)).mpr (by rwa [← pow_add, add_comm, add_assoc])
  rw [Int.natAbs_ediv, Int.natAbs_pow]
  exact hle.trans (Nat.le_add_right _ _)

/-- No component of the quick normal leaves [-2^16, 2^16 - 1] (R153 (d)). -/
theorem quickNormal_component_bounds {r : IntVector} {c : Int} (hc : c.natAbs ≤ largest r) :
    -(2 ^ 16) ≤ c / 2 ^ (normalShift r + 16) ∧ c / 2 ^ (normalShift r + 16) < 2 ^ 16 :=
  ediv_bounds_of_natAbs_lt (hc.trans_lt (largest_lt_of_normalShift r))

theorem quickNormal_bounds (r : IntVector) :
    ∀ n ∈ [(quickNormal r).x, (quickNormal r).y, (quickNormal r).z], -(2 ^ 16) ≤ n ∧ n < 2 ^ 16 := by
  obtain ⟨hx, hy, hz⟩ := largest_le_iff.mp (le_refl (largest r))
  exact List.forall_mem_cons.mpr ⟨quickNormal_component_bounds hx,
    List.forall_mem_cons.mpr ⟨quickNormal_component_bounds hy,
      List.forall_mem_singleton.mpr (quickNormal_component_bounds hz)⟩⟩

theorem le_largest_iff {v : IntVector} {n : Nat} :
    n ≤ largest v ↔ n ≤ v.x.natAbs ∨ n ≤ v.y.natAbs ∨ n ≤ v.z.natAbs := by
  simp only [largest, le_max_iff]

/-- On the overflow path the largest component keeps its leading one (R153 (d)). -/
theorem le_largest_quickNormal {r : IntVector} (h : 2 ^ 31 ≤ largest r) : 0x8000 ≤ largest (quickNormal r) :=
  le_largest_iff.mpr ((le_largest_iff.mp (le_largest_of_normalShift h)).imp le_natAbs_ediv
    (Or.imp le_natAbs_ediv le_natAbs_ediv))

theorem ediv_eq_zero_iff {c n : Int} (hn : 0 < n) : c / n = 0 ↔ 0 ≤ c ∧ c < n := by
  constructor
  · intro h
    exact ⟨(Int.ediv_nonneg_iff_of_pos hn).mp h.ge, by simpa [h] using Int.lt_ediv_add_one_mul_self c hn⟩
  · rintro ⟨h0, hlt⟩
    exact Int.ediv_eq_zero_of_lt h0 hlt

/-- A zero result rules out the overflow path, so the shift is 0 (R153 (g)). -/
theorem quickNormal_eq_zero_iff (r : IntVector) : quickNormal r = ⟨0, 0, 0⟩ ↔
    (0 ≤ r.x ∧ r.x < 2 ^ 16) ∧ (0 ≤ r.y ∧ r.y < 2 ^ 16) ∧ (0 ≤ r.z ∧ r.z < 2 ^ 16) := by
  obtain hlt | hge := Nat.lt_or_ge (largest r) (2 ^ 31)
  · simp only [quickNormal, normalShift_of_lt hlt, zero_add, IntVector.mk.injEq,
      ediv_eq_zero_iff (show (0 : Int) < 2 ^ 16 by norm_num)]
  · refine iff_of_false (fun h => ?_) fun ⟨hx, hy, hz⟩ => ?_
    · have := le_largest_quickNormal hge
      rw [h] at this
      exact absurd this (by decide)
    · obtain h | h | h := le_largest_iff.mp hge <;> omega

/-- The two floors of a component are one, which does not wrap (R153 (f)). -/
theorem toInt_word_floors {r : IntVector} {c : Int} (hc : c.natAbs ≤ largest r) :
    (word (c / 2 ^ normalShift r / 2 ^ 16)).toInt = c / 2 ^ (normalShift r + 16) := by
  obtain ⟨hlo, hhi⟩ := quickNormal_component_bounds hc
  rw [Int.ediv_ediv_of_nonneg (by positivity), ← pow_add]
  exact toInt_ofInt_word (by omega) (by omega)

theorem ints_quick (v0 v1 v2 : FixedVector) : ints (quick v0 v1 v2) = quickNormal (normalOf v0 v1 v2) := by
  obtain ⟨hx, hy, hz⟩ := largest_le_iff.mp (le_refl (largest (normalOf v0 v1 v2)))
  rw [quick_eq_words, log2_combinedValue]
  simp only [ints, quickNormal, toInt_word_floors hx, toInt_word_floors hy, toInt_word_floors hz]

theorem quick_eq_zeroVector_iff (v0 v1 v2 : FixedVector) : quick v0 v1 v2 = zeroVector ↔ Degenerate v0 v1 v2 := by
  rw [Degenerate, ← quickNormal_eq_zero_iff, ← ints_quick]
  constructor
  · intro h
    rw [h]; rfl
  · intro h
    exact eq_zeroVector_of_largest (by rw [h]; rfl)

/-- Settles O31, from the bounds of the one floor. -/
theorem nrmqComponentsAreExactAndFit : Obligations.NrmqComponentsAreExactAndFit := by
  intro d a b c s
  refine ⟨_, exec_nrmq d a b c s, frameVector_writeV s d _, ?_⟩
  rw [readV_writeV_same]
  have hq := ints_quick (readV s a) (readV s b) (readV s c)
  refine ⟨hq, ?_, ?_⟩
  · have := quickNormal_bounds (normalOf (readV s a) (readV s b) (readV s c))
    rwa [← hq] at this
  · rw [hq]
    exact le_largest_quickNormal

/-- Settles O32: the zero vector is the one with zero components, which are floors. -/
theorem nrmqIsZeroExactlyWhenDegenerate : Obligations.NrmqIsZeroExactlyWhenDegenerate := by
  intro d a b c s
  refine ⟨_, exec_nrmq d a b c s, ?_⟩
  rw [readV_writeV_same]
  exact quick_eq_zeroVector_iff _ _ _

end Sys2Proof.Machine
end

section
/-! Orientation: exchanging the last two points negates the exact cross product and keeps the shift, so only the floors
differ (42_surface_normal.md R155). -/

namespace Sys2Proof.Machine

open Sys2Proof.Safety

/-- Three integers with the opposite signs. -/
def opposite (r : IntVector) : IntVector := ⟨-r.x, -r.y, -r.z⟩

theorem largest_opposite (r : IntVector) : largest (opposite r) = largest r := by
  simp only [largest, opposite, Int.natAbs_neg]

theorem normalShift_opposite (r : IntVector) : normalShift (opposite r) = normalShift r := by
  rw [normalShift_eq, largest_opposite, ← normalShift_eq]

/-- An edge whose differences fit is exact. -/
theorem edge_of_differenceFits {p q : FixedVector} (h : DifferenceFits p q) :
    edge p q = ⟨q.x.toInt - p.x.toInt, q.y.toInt - p.y.toInt, q.z.toInt - p.z.toInt⟩ := by
  obtain ⟨⟨hx, hx'⟩, ⟨hy, hy'⟩, hz, hz'⟩ := h
  have fits {n : Int} (h : -(2 ^ 31) ≤ n) (h' : n < 2 ^ 31) : n.bmod (2 ^ 32) = n :=
    Int.bmod_eq_of_le (by omega) (by omega)
  rw [edge, fits hx hx', fits hy hy', fits hz hz']

theorem normalOf_swap {v0 v1 v2 : FixedVector} (h01 : DifferenceFits v0 v1) (h12 : DifferenceFits v1 v2)
    (h02 : DifferenceFits v0 v2) (h21 : DifferenceFits v2 v1) : normalOf v0 v2 v1 = opposite (normalOf v0 v1 v2) := by
  simp only [normalOf, edge_of_differenceFits, h01, h12, h02, h21, exactCross, opposite, IntVector.mk.injEq]
  exact ⟨by ring, by ring, by ring⟩

/-- The floor of a negation is the negation of the floor, less one unless the division is exact. -/
theorem neg_ediv_two_pow (c : Int) (k : Nat) : -c / 2 ^ k = -(c / 2 ^ k) - if (2 : Int) ^ k ∣ c then 0 else 1 := by
  rw [Int.neg_ediv, Int.sign_eq_one_of_pos (by positivity)]

/-- Settles O33: both results are floors over the same power of two, of opposite numerators. -/
theorem nrmqSwapNegatesWithinOneUlp : Obligations.NrmqSwapNegatesWithinOneUlp := by
  intro d a b c s h01 h12 h02 h21
  refine ⟨_, _, exec_nrmq d a b c s, exec_nrmq d a c b s, ?_⟩
  have ht := ints_quick (readV s a) (readV s b) (readV s c)
  have hu := ints_quick (readV s a) (readV s c) (readV s b)
  rw [normalOf_swap h01 h12 h02 h21, quickNormal, normalShift_opposite] at hu
  simp only [opposite, neg_ediv_two_pow] at hu
  rw [quickNormal] at ht
  obtain ⟨htx, hty, htz⟩ := IntVector.mk.inj ht
  obtain ⟨hux, huy, huz⟩ := IntVector.mk.inj hu
  rw [readV_writeV_same, readV_writeV_same, htx, hty, htz]
  exact ⟨hux, huy, huz⟩

end Sys2Proof.Machine
end

section
/-! NRML: the quick normal, normalized in place (42_surface_normal.md R152). -/

namespace Sys2Proof.Machine

open Sys2Proof.Safety

theorem exec_nrml (d a b c : VReg) (s : State) : exec (.nrml d a b c) s =
    .next (normalizeInPlace (encode (.nrml d a b c)) d
      (writeV s d (quick (readV s a) (readV s b) (readV s c)))) := rfl

theorem exec_nrml_of_zero {d a b c : VReg} {s : State}
    (h : magnitude (quick (readV s a) (readV s b) (readV s c)) = 0) : exec (.nrml d a b c) s =
      .next (raiseFault .divideByZero (encode (.nrml d a b c))
        (writeV s d (quick (readV s a) (readV s b) (readV s c)))) := by
  rw [exec_nrml, normalizeInPlace, readV_writeV_same, if_pos h]

theorem exec_nrml_of_ne_zero {d a b c : VReg} {s : State}
    (h : magnitude (quick (readV s a) (readV s b) (readV s c)) ≠ 0) : exec (.nrml d a b c) s =
      .next (writeV s d (vecDiv (quick (readV s a) (readV s b) (readV s c))
        (magnitude (quick (readV s a) (readV s b) (readV s c))))) := by
  rw [exec_nrml, normalizeInPlace, readV_writeV_same, if_neg h, writeV_writeV]

/-- The command word matters to FCMD alone, and only on DivideByZero. -/
theorem normalizeInPlace_word (w w' : Word) (d : VReg) (u : State) : normalizeInPlace w' d u =
    { normalizeInPlace w d u with fcmd := if readV u d = zeroVector then w' else u.fcmd } := by
  rw [normalizeInPlace, normalizeInPlace]
  split
  case isTrue h => rw [if_pos ((magnitude_eq_zero_iff _).mp h)]; rfl
  case isFalse h => rw [if_neg (mt (magnitude_eq_zero_iff _).mpr h)]; rfl

/-- 0x0001BB67 is the floor of `sqrt 3 * 2 ^ 16`. -/
theorem toNat_magnitude_le_of_largest {v : FixedVector} (h : largest (ints v) ≤ 2 ^ 16) :
    (magnitude v).toNat ≤ 0x0001BB67 := by
  obtain ⟨hx, hy, hz⟩ := largest_le_iff.mp h
  have square {c : Int} (hc : c.natAbs ≤ 2 ^ 16) : c * c ≤ 2 ^ 32 := by
    rw [← Int.natAbs_mul_self']
    exact_mod_cast Nat.mul_le_mul hc hc
  obtain ⟨hle, -⟩ := isMagnitude_magnitude v
  have hsum := add_le_add (add_le_add (square hx) (square hy)) (square hz)
  rw [sumSquares] at hle
  by_contra hgt
  have : (0x0001BB68 : Int) * 0x0001BB68 ≤ (magnitude v).toNat * (magnitude v).toNat :=
    mul_self_le_mul_self (by norm_num) (by omega)
  omega

theorem largest_ints_quick_le (v0 v1 v2 : FixedVector) : largest (ints (quick v0 v1 v2)) ≤ 2 ^ 16 := by
  rw [ints_quick]
  have hb := quickNormal_bounds (normalOf v0 v1 v2)
  simp only [List.forall_mem_cons] at hb
  obtain ⟨hx, hy, hz, -⟩ := hb
  exact largest_le_iff.mpr ⟨by omega, by omega, by omega⟩

/-- Divided by its own magnitude, as long as that reads as positive, a vector gives exact quotients of size at most
1.0. -/
theorem ints_vecDiv_magnitude {v : FixedVector} (hm : magnitude v ≠ 0) (hlt : (magnitude v).toNat < 2 ^ 31) :
    ints (vecDiv v (magnitude v)) = ⟨((ints v).x * 2 ^ 16).tdiv (magnitude v).toNat,
      ((ints v).y * 2 ^ 16).tdiv (magnitude v).toNat, ((ints v).z * 2 ^ 16).tdiv (magnitude v).toNat⟩ ∧
    largest (ints (vecDiv v (magnitude v))) ≤ 2 ^ 16 := by
  have hle := toNat_magnitude_le v
  obtain ⟨hx, hy, hz⟩ := largest_ints_le_iff.mp (largest_le_of_isMagnitude (isMagnitude_magnitude v))
  have hk : (magnitude v).toInt = (magnitude v).toNat := BitVec.toInt_eq_toNat_of_lt (by omega)
  constructor
  · simp only [ints, vecDiv, toInt_fixDiv hm hx hle, toInt_fixDiv hm hy hle, toInt_fixDiv hm hz hle, hk]
  · exact largest_ints_le_iff.mpr ⟨(natAbs_fixDiv_bounds hm hx hle).2 hlt, (natAbs_fixDiv_bounds hm hy hle).2 hlt,
      (natAbs_fixDiv_bounds hm hz hle).2 hlt⟩

/-- Settles O34: the quotient by the magnitude of the quick result, or DivideByZero when it is 0. -/
theorem nrmlNormalizesTheQuickResult : Obligations.NrmlNormalizesTheQuickResult := by
  intro d a b c s
  refine ⟨by simp [toNat_encode, instrFields], _, (magnitude (quick (readV s a) (readV s b) (readV s c))).toNat,
    exec_nrmq d a b c s, BitVec.isLt _, ?_⟩
  rw [readV_writeV_same]
  refine ⟨isMagnitude_magnitude _, fun hq => exec_nrml_of_zero (BitVec.eq_of_toNat_eq hq), fun hq => ?_⟩
  have hm : magnitude (quick (readV s a) (readV s b) (readV s c)) ≠ 0 := BitVec.toNat_ne.mpr hq
  refine ⟨_, exec_nrml_of_ne_zero hm, ?_, frameVector_writeV s d _⟩
  rw [readV_writeV_same, vecDiv_of_ne_zero _ hm, BitVec.ofNat_toNat, BitVec.setWidth_eq]

/-- Settles O35: the quick result is not zero, and its magnitude is far below 2^31. -/
theorem nrmlCompletesOnProperTriangles : Obligations.NrmlCompletesOnProperTriangles := by
  intro d a b c s hproper
  have hm : magnitude (quick (readV s a) (readV s b) (readV s c)) ≠ 0 := fun h =>
    hproper ((quick_eq_zeroVector_iff _ _ _).mp ((magnitude_eq_zero_iff _).mp h))
  have hle := toNat_magnitude_le_of_largest (largest_ints_quick_le (readV s a) (readV s b) (readV s c))
  rw [← ints_quick]
  refine ⟨_, _, Nat.pos_of_ne_zero (BitVec.toNat_ne.mp hm), hle, isMagnitude_magnitude _, exec_nrml_of_ne_zero hm,
    frameVector_writeV s d _, ?_⟩
  rw [readV_writeV_same]
  exact ints_vecDiv_magnitude hm (by omega)

/-- Settles O36: both normalize the state that NRMQ leaves, each with its own command word. -/
theorem nrmlIsNrmqThenVnrm : Obligations.NrmlIsNrmqThenVnrm := by
  intro d a b c s
  refine ⟨_, _, exec_nrmq d a b c s, rfl, ?_⟩
  rw [exec_nrml, normalizeInPlace_word (encode (.vnrm d)), writeV_fcmd]

end Sys2Proof.Machine
end

section
/-! DivideByZero: VNRM raises it exactly on the zero vector and NRML exactly on a zero quick result, which only
degenerate points have (60_exceptions.md R170, R172; 42_surface_normal.md R153). -/

namespace Sys2Proof.Machine

open Sys2Proof.Safety

theorem exec_vnrm_of_zeroVector {d : VReg} {s : State} (h : readV s d = zeroVector) :
    exec (.vnrm d) s = .next (raiseFault .divideByZero (encode (.vnrm d)) s) :=
  exec_vnrm_of_zero ((magnitude_eq_zero_iff _).mpr h)

theorem exec_vnrm_controlSame {d : VReg} {s : State} (h : readV s d ≠ zeroVector) :
    ∃ t, exec (.vnrm d) s = .next t ∧ ControlSame s t :=
  ⟨_, exec_vnrm_of_ne_zero (mt (magnitude_eq_zero_iff _).mp h), controlSame_writeV s d _⟩

theorem exec_nrml_of_zeroVector {d a b c : VReg} {s : State}
    (h : quick (readV s a) (readV s b) (readV s c) = zeroVector) : exec (.nrml d a b c) s =
      .next (raiseFault .divideByZero (encode (.nrml d a b c)) (writeV s d zeroVector)) := by
  rw [exec_nrml_of_zero ((magnitude_eq_zero_iff _).mpr h), h]

theorem exec_nrml_controlSame {d a b c : VReg} {s : State}
    (h : quick (readV s a) (readV s b) (readV s c) ≠ zeroVector) :
    ∃ t, exec (.nrml d a b c) s = .next t ∧ ControlSame s t :=
  ⟨_, exec_nrml_of_ne_zero (mt (magnitude_eq_zero_iff _).mp h), controlSame_writeV s d _⟩

/-- Settles O37: the magnitude that is tested is 0 for the zero vector alone, and NRMQ's result is the quick result. -/
theorem divideByZeroIsRaisedExactlyOnZero : Obligations.DivideByZeroIsRaisedExactlyOnZero := by
  refine ⟨fun d s => ⟨exec_vnrm_of_zeroVector, exec_vnrm_controlSame⟩, fun d a b c s u hu => ?_⟩
  obtain rfl := Host.Outcome.next.inj ((exec_nrmq d a b c s).symm.trans hu)
  rw [readV_writeV_same]
  exact ⟨exec_nrml_of_zeroVector, exec_nrml_controlSame⟩

/-- A command that divides by zero when it runs from the state `s`. -/
def DividesByZero (i : Instr) (s : State) : Prop :=
  (∃ d, i = .vnrm d ∧ readV s d = zeroVector) ∨
    ∃ d a b c, i = .nrml d a b c ∧ Degenerate (readV s a) (readV s b) (readV s c)

/-- A command has one outcome. -/
theorem controlSame_of_exec {i : Instr} {s t : State} (h : exec i s = .next t)
    (hu : ∃ u, exec i s = .next u ∧ ControlSame s u) : ControlSame s t := by
  obtain ⟨u, he, hc⟩ := hu
  obtain rfl := Host.Outcome.next.inj (he.symm.trans h)
  exact hc

/-- A command that does not leave STATUS, CTRL and FCMD divides by zero. -/
theorem dividesByZero_of_not_controlSame {i : Instr} {s t : State} (h : exec i s = .next t) (hc : ¬ ControlSame s t) :
    DividesByZero i s := by
  obtain hsame | ⟨⟨d, rfl⟩ | ⟨d, a, b, c, rfl⟩, -⟩ := exec_control_cases h
  · exact absurd hsame hc
  · exact .inl ⟨d, rfl, not_imp_comm.mp (fun hv => controlSame_of_exec h (exec_vnrm_controlSame hv)) hc⟩
  · refine .inr ⟨d, a, b, c, rfl, (quick_eq_zeroVector_iff _ _ _).mp ?_⟩
    exact not_imp_comm.mp (fun hv => controlSame_of_exec h (exec_nrml_controlSame hv)) hc

end Sys2Proof.Machine
end

section
/-! A step from a state without a fault flag (60_exceptions.md R170, R173). -/

namespace Sys2Proof.Machine

open Sys2Proof.Safety

theorem faultFree_of_controlSame {s t : State} (h : ControlSame s t) (hs : FaultFree s) : FaultFree t := by
  obtain ⟨hz, hl, -⟩ := h
  exact ⟨hz.trans hs.1, hl.trans hs.2⟩

theorem faultFree_acknowledge {s : State} (hs : FaultFree s) (data : Word) : FaultFree (acknowledge data s) := by
  obtain ⟨hz, hl⟩ := hs
  simp [FaultFree, hz, hl]

theorem faultFree_writeCtrl {s : State} (hs : FaultFree s) (data : Word) : FaultFree (writeCtrl data s) := hs

theorem faultFree_takeReset (s : State) : FaultFree (takeReset s) := ⟨rfl, rfl⟩

/-- Settles O16: of the cases of what a step can do to the flags only the two faults lose it, and DivideByZero comes
only of a command that divides by zero. -/
theorem faultFreeIsLostOnlyByAFault : Obligations.FaultFreeIsLostOnlyByAFault := by
  intro s t hs h ht
  obtain hc | ⟨data, rest, -, hc⟩ | ⟨data, rest, -, hc⟩ | ⟨w, rest, i, hp, hd, -, hc⟩ | ⟨w, rest, e, hp, hd, hc⟩ |
    ⟨rest, -, hc⟩ := step_control_cases h
  · exact absurd (faultFree_of_controlSame hc hs) ht
  · exact absurd (faultFree_of_controlSame hc (faultFree_acknowledge hs data)) ht
  · exact absurd (faultFree_of_controlSame hc (faultFree_writeCtrl hs data)) ht
  · obtain rfl := encodeOfDecodedIsTheWord w i hd
    obtain ⟨hz, hl, -, -, hf⟩ := hc
    refine ⟨_, rest, hp, hf, .inr ?_⟩
    have he := (step_memWrite_cmd hp hd).symm.trans h
    obtain ⟨d, rfl, hv⟩ | ⟨d, a, b, c, rfl, hv⟩ :=
      dividesByZero_of_not_controlSame he fun hsame => ht (faultFree_of_controlSame hsame hs)
    · exact .inl ⟨d, rfl, hv, hz, hl.trans hs.2⟩
    · exact .inr ⟨d, a, b, c, rfl, hv, hz, hl.trans hs.2⟩
  · obtain ⟨hz, hl, -, -, hf⟩ := hc
    exact ⟨w, rest, hp, hf, .inl ⟨(refusedWordsAreTheIllegalOnes w).1.mp ⟨e, hd⟩, hl, hz.trans hs.1⟩⟩
  · exact absurd (faultFree_of_controlSame hc (faultFree_takeReset s)) ht

end Sys2Proof.Machine
end

section
/-! Commands and STATUS, CTRL and FCMD: replacing these in the state changes no result (60_exceptions.md R179). -/

namespace Sys2Proof.Machine

open Sys2Proof.Safety

/-- The state `s` with STATUS, CTRL and FCMD of the state `k`. -/
def withControlOf (k s : State) : State :=
  { s with dz := k.dz, ill := k.ill, dzie := k.dzie, illie := k.illie, fcmd := k.fcmd }

/-- `r` is what a command makes of `s`, and `r'` what it makes of `withControlOf k s`: in both it writes the same
registers, or in both it then raises DivideByZero with the word `w` as well. -/
def SameResult (w : Word) (k s r r' : State) : Prop :=
  ∃ t, ControlSame s t ∧ ((r = t ∧ r' = withControlOf k t) ∨
    (r = raiseFault .divideByZero w t ∧ r' = raiseFault .divideByZero w (withControlOf k t)))

theorem sameResult_writeV (w : Word) (k s : State) (d : VReg) (v : FixedVector) :
    SameResult w k s (writeV s d v) (writeV (withControlOf k s) d v) :=
  ⟨_, controlSame_writeV s d v, .inl ⟨rfl, rfl⟩⟩

theorem sameResult_writeS (w : Word) (k s : State) (d : SReg) (v : Word) :
    SameResult w k s (writeS s d v) (writeS (withControlOf k s) d v) :=
  ⟨_, controlSame_writeS s d v, .inl ⟨rfl, rfl⟩⟩

/-- Normalizing in place reads the register alone, also when seen from the state `s` before NRML's write of the quick
result. -/
theorem sameResult_normalizeInPlace {s u : State} (hu : ControlSame s u) (w : Word) (k : State) (d : VReg) :
    SameResult w k s (normalizeInPlace w d u) (normalizeInPlace w d (withControlOf k u)) := by
  by_cases hm : magnitude (readV u d) = 0
  · exact ⟨u, hu, .inr ⟨if_pos hm, if_pos hm⟩⟩
  · exact ⟨writeV u d (vecDiv (readV u d) (magnitude (readV u d))), hu, .inl ⟨if_neg hm, if_neg hm⟩⟩

theorem exec_withControlOf (i : Instr) (k s : State) :
    ∃ r r', exec i s = .next r ∧ exec i (withControlOf k s) = .next r' ∧ SameResult (encode i) k s r r' := by
  cases i with
  | vadd d | vsub d | vscl d | nrmq d => exact ⟨_, _, rfl, rfl, sameResult_writeV _ k s d _⟩
  | vdot d | vmag d => exact ⟨_, _, rfl, rfl, sameResult_writeS _ k s d _⟩
  | vnrm d => exact ⟨_, _, rfl, rfl, sameResult_normalizeInPlace (controlSame_refl s) _ k d⟩
  | nrml d => exact ⟨_, _, rfl, rfl, sameResult_normalizeInPlace (controlSame_writeV s d _) _ k d⟩

/-- Settles O21: with other contents of STATUS, CTRL and FCMD a command writes the same and raises the same. -/
theorem resultsIgnoreStatusAndControl : Obligations.ResultsIgnoreStatusAndControl := by
  intro i s dz ill dzie illie fcmd
  obtain ⟨r, r', hr, hr', t, ⟨hz, hl, -, -, hf⟩, hcases⟩ :=
    exec_withControlOf i { s with dz := dz, ill := ill, dzie := dzie, illie := illie, fcmd := fcmd } s
  refine ⟨r, r', hr, hr', ?_⟩
  obtain ⟨rfl, rfl⟩ | ⟨rfl, rfl⟩ := hcases
  · exact ⟨rfl, rfl, rfl, rfl, .inl ⟨hz, hl, hf, rfl, rfl, rfl⟩⟩
  · exact ⟨rfl, rfl, rfl, rfl, .inr ⟨rfl, hl, rfl, rfl, rfl⟩⟩

end Sys2Proof.Machine
end

section
/-! Steps and faults: an illegal word, the interrupt output, and that the block never stops (60_exceptions.md R171,
R174, R177). -/

namespace Sys2Proof.Machine

open Sys2Proof.Safety

/-- A step that takes a write of an undecodable word to CMD raises IllegalCommand (60_exceptions.md R171). -/
theorem step_memWrite_illegal {s : State} {w : Word} {rest : List HostEvent} {e : DecodeError}
    (hp : s.pending = .memWrite 0x50 w :: rest) (hd : decode w = .error e) :
    step s = .next (raiseFault .illegalCommand w { s with pending := rest, reply := none }) := by
  rw [step_of_pending hp, takeEvent, memWrite_cmd, writeCmd_of_error hd]

/-- Settles O7: an illegal word decodes to no command, and the fault sets ILL and FCMD alone. -/
theorem illegalWordRaisesIllegalCommand : Obligations.IllegalWordRaisesIllegalCommand := by
  intro s w rest hp hw
  obtain ⟨e, hd⟩ := (refusedWordsAreTheIllegalOnes w).1.mpr hw
  exact ⟨_, step_memWrite_illegal hp hd, sameBlock_port { s with ill := true, fcmd := w } rest none⟩

/-- The interrupt output is a function of STATUS and CTRL (10_state.md R30). -/
theorem irq_of_controlSame {s t : State} (h : ControlSame s t) : irq t = irq s := by
  obtain ⟨hz, hl, hze, hle, -⟩ := h
  rw [irq, irq, hz, hl, hze, hle]

/-- Settles O20: every step that does not leave STATUS and CTRL takes one of these events. -/
theorem irqChangesOnlyByControlWrites : Obligations.IrqChangesOnlyByControlWrites := by
  intro s t h hirq
  obtain hc | ⟨data, rest, hp, -⟩ | ⟨data, rest, hp, -⟩ | ⟨w, rest, i, hp, -⟩ | ⟨w, rest, e, hp, -⟩ | ⟨rest, hp, -⟩ :=
    step_control_cases h
  · exact absurd (irq_of_controlSame hc) hirq
  · exact .inl ⟨0x51, data, rest, hp, .inr (.inl rfl)⟩
  · exact .inl ⟨0x52, data, rest, hp, .inr (.inr rfl)⟩
  · exact .inl ⟨0x50, w, rest, hp, .inl rfl⟩
  · exact .inl ⟨0x50, w, rest, hp, .inl rfl⟩
  · exact .inr ⟨rest, hp⟩

/-- Settles O8, by the next event: an illegal word and a zero divisor end in a next state as everything else does. -/
theorem everyStepAnswersNext : Obligations.EveryStepAnswersNext := by
  intro s
  cases hp : s.pending with
  | nil => exact ⟨s, stepTakesOneEventInOrder.2 s hp⟩
  | cons ev rest =>
    cases ev with
    | memRead idx => exact ⟨_, step_memRead hp⟩
    | memWrite idx data =>
      obtain ⟨u, -, h⟩ := step_memWrite hp
      exact ⟨_, h⟩
    | reset => exact ⟨_, step_of_pending hp⟩

end Sys2Proof.Machine
end

section
/-! The reset event: the block it leaves, as the register map and irq show it (70_reset_and_hazards.md R200; 10_state.md
R35). -/

namespace Sys2Proof.Machine

theorem step_reset {s : State} {rest : List HostEvent} (hp : s.pending = .reset :: rest) :
    step s = .next (takeReset { s with pending := rest }) := by
  rw [step_of_pending hp, takeEvent]

@[simp] theorem statusWord_takeReset (s : State) : statusWord (takeReset s) = 0 := by
  simp [statusWord]

@[simp] theorem ctrlWord_takeReset (s : State) : ctrlWord (takeReset s) = 0 := by
  simp [ctrlWord]

@[simp] theorem irq_takeReset (s : State) : irq (takeReset s) = false := by
  simp [irq]

/-- Settles O14: the step ends in `takeReset`'s state, whose control words are read through the register map. -/
theorem resetEventClearsTheBlock : Obligations.ResetEventClearsTheBlock := by
  intro s rest hp
  refine ⟨_, step_reset hp, ?status, ?ctrl, ?fcmd, ?id, irq_takeReset _, takeReset_pending _, takeReset_reply _⟩
  case status => rw [mapRead_status, statusWord_takeReset]
  case ctrl => rw [mapRead_ctrl, ctrlWord_takeReset]
  case fcmd => rw [mapRead_fcmd, takeReset_fcmd]
  case id => rw [mapRead_id, idWord]

end Sys2Proof.Machine
end
